-- ==== Sys2Proof/Word.lean ====
section
/-!
DEFINITION. The bit-vector widths of the block (spec/00_scope.md R7: every value is an unsigned bit vector of a
stated width, bit 0 the least significant).
-/

namespace Sys2Proof

/-- One bit, the operand of CRCBIT (R48). -/
abbrev Bit := BitVec 1

/-- A byte, `u8` (R7, R30). -/
abbrev Byte := BitVec 8

/-- A 16-bit value, `u16`: a command word (R45), the CRC register (R11), the data of a response (R55). -/
abbrev Word := BitVec 16

/-- A 4-bit error code (R108). -/
abbrev Code := BitVec 4

end Sys2Proof
end

