-- ==== Sys2Proof/Syntax.lean ====
section
/-!
DEFINITION. The operations of the block, one constructor per row of spec/opcode_table.json (spec/30_encoding.md R50),
and the names of its errors (spec/60_exceptions.md R108).
-/

namespace Sys2Proof

/-- The nineteen operations with their operands (R46 to R50). -/
inductive Instr where
  | nop                 -- NOP, R101
  | rdreg (n : Byte)    -- RDREG n, R102: register number
  | errclr              -- ERRCLR, R103
  | srst                -- SRST, R104
  | crcclr              -- CRCCLR, R70
  | crcbit (b : Bit)    -- CRCBIT b, R71: data bit
  | crcbyte (d : Byte)  -- CRCBYTE d, R72: data byte
  | crcflush            -- CRCFLUSH, R73
  | txclr               -- TXCLR, R76
  | txdata (d : Byte)   -- TXDATA d, R77: payload byte
  | txbuild             -- TXBUILD, R78
  | txpop               -- TXPOP, R79
  | txrew               -- TXREW, R80
  | blkset (v : Byte)   -- BLKSET v, R81: block number
  | blknext             -- BLKNEXT, R82
  | blkrst              -- BLKRST, R83
  | rxclr               -- RXCLR, R91
  | rxbyte (d : Byte)   -- RXBYTE d, R92: received byte
  | rxpay (i : Byte)    -- RXPAY i, R93: payload index
deriving DecidableEq, Repr

/-- The seven errors of R108. None of them stops the block (R107, R109). -/
inductive ErrName where
  | illop    -- E_ILLOP: unassigned opcode
  | rsvd     -- E_RSVD: a reserved operand bit is nonzero
  | range    -- E_RANGE: index operand outside its legal range
  | seq      -- E_SEQ: not allowed in the present sequencing state
  | txfull   -- E_TXFULL: the payload already holds 128 bytes
  | txempty  -- E_TXEMPTY: all 133 bytes already popped
  | rxfull   -- E_RXFULL: the receive buffer already holds 133 bytes
deriving DecidableEq, Repr

end Sys2Proof
end

