-- ==== Sys2Proof/WellFormed.lean ====
section
/-!
DEFINITION. Which operations a command word can name: an index operand must lie in its range
(spec/30_encoding.md R49, R51 step 3). Every other operand value is legal (R47, R48).
-/

namespace Sys2Proof

/-- The highest register number RDREG accepts (R25, R49). -/
def topRegister : Nat := 8

/-- The highest payload index RXPAY accepts (R49, R93). -/
def topPayloadIndex : Nat := 127

/-- The operations that some command word encodes (R49, R51). -/
def wellFormed : Instr → Bool
  | .rdreg n => decide (n.toNat ≤ topRegister)
  | .rxpay i => decide (i.toNat ≤ topPayloadIndex)
  | .nop | .errclr | .srst => true
  | .crcclr | .crcbit _ | .crcbyte _ | .crcflush => true
  | .txclr | .txdata _ | .txbuild | .txpop | .txrew => true
  | .blkset _ | .blknext | .blkrst => true
  | .rxclr | .rxbyte _ => true

end Sys2Proof
end

