-- ==== Sys2Proof/Decode.lean ====
section
/-!
DEFINITION. The command word: fields, formats, decoder and encoder (spec/30_encoding.md R45 to R53), and the opcode
map with its match and mask columns (R50).
-/

namespace Sys2Proof

/-- `OPC`, bits 15:8 of the command word (R45). -/
def opcOf (w : Word) : Byte := w.extractLsb' 8 8

/-- `ARG`, bits 7:0 of the command word (R45). -/
def argOf (w : Word) : Byte := w.extractLsb' 0 8

/-- Format N: `ARG` must be 0x00 (R46, R51 step 2). -/
def formatN (i : Instr) (arg : Byte) : Except ErrName Instr :=
  if arg = 0x00 then .ok i else .error .rsvd

/-- Format B: every `ARG` is a legal data value (R47). -/
def formatB (f : Byte → Instr) (arg : Byte) : Except ErrName Instr :=
  .ok (f arg)

/-- Format T: `ARG[0]` is the data bit and `ARG[7:1]` must be zero (R48, R51 step 2). -/
def formatT (f : Bit → Instr) (arg : Byte) : Except ErrName Instr :=
  if arg.extractLsb' 1 7 = 0 then .ok (f (arg.extractLsb' 0 1)) else .error .rsvd

/-- Format I: `ARG` is an unsigned index, at most `top` (R49, R51 step 3). -/
def formatI (f : Byte → Instr) (top : Nat) (arg : Byte) : Except ErrName Instr :=
  if arg.toNat ≤ top then .ok (f arg) else .error .range

/-- The opcode map (R50) with the format of each row (R46 to R49): the operation of an opcode and its `ARG`, or exactly
one of E_ILLOP, E_RSVD, E_RANGE. -/
def decodeFields (opc arg : Byte) : Except ErrName Instr :=
  match opc with
  | 0x00#8 => formatN .nop arg
  | 0x01#8 => formatI .rdreg topRegister arg
  | 0x02#8 => formatN .errclr arg
  | 0x03#8 => formatN .srst arg
  | 0x10#8 => formatN .crcclr arg
  | 0x11#8 => formatT .crcbit arg
  | 0x12#8 => formatB .crcbyte arg
  | 0x13#8 => formatN .crcflush arg
  | 0x20#8 => formatN .txclr arg
  | 0x21#8 => formatB .txdata arg
  | 0x22#8 => formatN .txbuild arg
  | 0x23#8 => formatN .txpop arg
  | 0x24#8 => formatN .txrew arg
  | 0x25#8 => formatB .blkset arg
  | 0x26#8 => formatN .blknext arg
  | 0x27#8 => formatN .blkrst arg
  | 0x30#8 => formatN .rxclr arg
  | 0x31#8 => formatB .rxbyte arg
  | 0x32#8 => formatI .rxpay topPayloadIndex arg
  | _ => .error .illop

/-- Decode of a command word (R51). It depends on the word alone. -/
def decode (w : Word) : Except ErrName Instr := decodeFields (opcOf w) (argOf w)

/-- `{OPC, ARG}` as one word (R45, R51). -/
def wordOf (opc arg : Byte) : Word := opc ++ arg

/-- `ARG` of format T: `{0b0000000, b}` (R51). -/
def argOfBit (b : Bit) : Byte := 0#7 ++ b

/-- Encode of an operation (R51): its opcode, and its operand in `ARG`. Only well-formed operations have a legal word. -/
def encode : Instr → Word
  | .nop => wordOf 0x00 0x00
  | .rdreg n => wordOf 0x01 n
  | .errclr => wordOf 0x02 0x00
  | .srst => wordOf 0x03 0x00
  | .crcclr => wordOf 0x10 0x00
  | .crcbit b => wordOf 0x11 (argOfBit b)
  | .crcbyte d => wordOf 0x12 d
  | .crcflush => wordOf 0x13 0x00
  | .txclr => wordOf 0x20 0x00
  | .txdata d => wordOf 0x21 d
  | .txbuild => wordOf 0x22 0x00
  | .txpop => wordOf 0x23 0x00
  | .txrew => wordOf 0x24 0x00
  | .blkset v => wordOf 0x25 v
  | .blknext => wordOf 0x26 0x00
  | .blkrst => wordOf 0x27 0x00
  | .rxclr => wordOf 0x30 0x00
  | .rxbyte d => wordOf 0x31 d
  | .rxpay i => wordOf 0x32 i

/-- The columns "match" and "mask" of an operation's row (R50): a word selects the row if `w & mask == match`. -/
def rowOf : Instr → Word × Word
  | .nop => (0x0000, 0xFFFF)
  | .rdreg _ => (0x0100, 0xFF00)
  | .errclr => (0x0200, 0xFFFF)
  | .srst => (0x0300, 0xFFFF)
  | .crcclr => (0x1000, 0xFFFF)
  | .crcbit _ => (0x1100, 0xFFFE)
  | .crcbyte _ => (0x1200, 0xFF00)
  | .crcflush => (0x1300, 0xFFFF)
  | .txclr => (0x2000, 0xFFFF)
  | .txdata _ => (0x2100, 0xFF00)
  | .txbuild => (0x2200, 0xFFFF)
  | .txpop => (0x2300, 0xFFFF)
  | .txrew => (0x2400, 0xFFFF)
  | .blkset _ => (0x2500, 0xFF00)
  | .blknext => (0x2600, 0xFFFF)
  | .blkrst => (0x2700, 0xFFFF)
  | .rxclr => (0x3000, 0xFFFF)
  | .rxbyte _ => (0x3100, 0xFF00)
  | .rxpay _ => (0x3200, 0xFF00)

/-- The column "match, mask" selects a word (R50). -/
def rowSelects (row : Word × Word) (w : Word) : Bool := decide (w &&& row.2 = row.1)

/-- The command word whose bits are the low `nbits` of `w`, numbered as the opcode table numbers them. A command is one
16-bit word (R45, R53), so bits from 16 on are no part of it (log 17). -/
def tableWord (nbits w : Nat) : Word := BitVec.ofNat 16 (w % 2 ^ nbits)

/-- The operation the decoder reads from such a word; none where it raises an error. -/
def decodeTableWord (nbits w : Nat) : Option Instr :=
  match decode (tableWord nbits w) with
  | .ok i => some i
  | .error _ => none

end Sys2Proof
end

