-- ==== Sys2Proof/Config.lean ====
section
/-!
DEFINITION. The parameters of spec/00_scope.md R6 and the control bytes of spec/30_encoding.md R57.
They are constants, not state (R26 (a)).
-/

namespace Sys2Proof.Config

/-- `CRC_INIT`: the running value before the first bit (R6, decision D3 of the spec; log 5). -/
def crcInit : Word := 0x0000

/-- `POLY`: the polynomial constant (R6, R66). -/
def poly : Word := 0x1021

/-- `FLUSH_BITS`: zero bits fed after the last data byte (R6, R68). -/
def flushBits : Nat := 16

/-- `PAYLOAD_LEN`: payload bytes of a chunk (R6). -/
def payloadLen : Nat := 128

/-- `FRAME_LEN`: bytes of a chunk (R6, R56). -/
def frameLen : Nat := 133

/-- `PAD`: the fill byte of a short payload (R6, R84). -/
def pad : Byte := 0xFF

/-- `SOH`: the start marker (R6, R57, R58). -/
def soh : Byte := 0x01

/-- `BLK_FIRST`: the block number of the first chunk (R6, R12, R83). -/
def blkFirst : Byte := 0x01

/-- `NREG`: how many registers RDREG can read (R6, R25). -/
def nreg : Nat := 9

/-- End of transmission (R57); the host's, used by no operation of the block. -/
def eot : Byte := 0x04

/-- Acknowledge (R57); the host's, used by no operation of the block. -/
def ack : Byte := 0x06

/-- Negative acknowledge (R57); the host's, used by no operation of the block. -/
def nak : Byte := 0x15

/-- Start of text (R57). PRESUMED: the spec gives the value from general knowledge (G1) and no rule uses it (log 12). -/
def stx : Byte := 0x02

/-- `PORT_BASE`: OPEN in the spec (R6, R39, D14), so it has no body; no rule uses it, and neither does the
model (log 13). -/
opaque portBase : Nat

end Sys2Proof.Config
end

