-- ==== Sys2Proof/Machine/Crc16.lean ====
section
/-!
DEFINITION. The pure functions of the CRC-16 generator (spec/40_crc.md R66 to R69) and of the chunk builder
(spec/41_encoder.md R84, R85).
-/

namespace Sys2Proof.Machine

/-- `crc_update(c, b)` (R66): shift left by one, set bit 0 from the incoming bit, and XOR with the polynomial constant
when the bit shifted out was set. The reading is that of 90_conflicts.md C1. -/
def crcUpdate (c : Word) (b : Bit) : Word :=
  let shifted := (c <<< 1) ||| b.setWidth 16
  if c.getLsbD 15 then shifted ^^^ Config.poly else shifted

/-- The bits of a byte, bit 7 first (R34, R67). -/
def bitsOf (d : Byte) : List Bit :=
  [7, 6, 5, 4, 3, 2, 1, 0].map fun k => d.extractLsb' k 1

/-- `crc_byte(c, d)` (R67): the eight bits of `d`, most significant first. -/
def crcByte (c : Word) (d : Byte) : Word := (bitsOf d).foldl crcUpdate c

/-- `crc_flush(c)` (R68): sixteen zero bits. -/
def crcFlush (c : Word) : Word := (List.replicate Config.flushBits (0 : Bit)).foldl crcUpdate c

/-- `crc16(data)` (R69): from `CRC_INIT`, the bytes in order, then the flush; no reflection, no final XOR. -/
def crc16 (data : List Byte) : Word := crcFlush (data.foldl crcByte Config.crcInit)

/-- Bits 15:8 of a 16-bit value, the byte that goes first on the wire (R33). -/
def highByte (w : Word) : Byte := w.extractLsb' 8 8

/-- Bits 7:0 of a 16-bit value. -/
def lowByte (w : Word) : Byte := w.extractLsb' 0 8

/-- The big-endian value `{hi, lo}` (R7, R33). -/
def bigEndian (hi lo : Byte) : Word := hi ++ lo

/-- The complement of a block number, `255 - block` (R85). -/
def complement (block : Byte) : Byte := 255 - block

/-- The payload of `build_chunk` (R84): up to 128 source bytes, the shortfall filled with the pad byte. Source bytes
beyond 128 are not the chunk's: the caller keeps them for the next one (R84). -/
def padded (src : List Byte) : List Byte :=
  src.take Config.payloadLen ++ List.replicate (Config.payloadLen - src.length) Config.pad

/-- `build_chunk(block, src)` (R84): start marker, block number, complement, payload, and the CRC of the payload high
byte first. -/
def buildChunk (block : Byte) (src : List Byte) : List Byte :=
  let payload := padded src
  let c := crc16 payload
  [Config.soh, block, complement block] ++ payload ++ [highByte c, lowByte c]

end Sys2Proof.Machine
end

