-- ==== Sys2Proof/Machine/State.lean ====
section
/-!
DEFINITION. The state of the block: the ten pieces of spec/10_state.md R10 (`Block`). Beside it `State`, what the host's
interface takes and gives in one step: the block and what is on its port. All plain data.
-/

namespace Sys2Proof.Machine

/-- A frame buffer: the bytes that differ from what an unlisted offset reads as, by strictly rising offset. The
operations over it, and its canonical form `Memory.wf`, are in Machine/Ops.lean. -/
abbrev Memory := List Host.Cell

/-- A response `RESP = (E, D)` (R55). -/
structure Response where
  e : Code
  d : Word
deriving DecidableEq, Repr

/-- The architectural state of XFC16: exactly the rows of R10. -/
structure Block where
  /-- `CRC`, 16 bits (R11). -/
  crc : Word
  /-- `BLK`, 8 bits (R12). -/
  blk : Byte
  /-- `TXCNT`, 8 bits, legal 0 to 128 (R15). -/
  txcnt : Byte
  /-- `TXPOS`, 8 bits, legal 0 to 133 (R16). -/
  txpos : Byte
  /-- `TXVALID`, 1 bit (R17). -/
  txvalid : Bool
  /-- `TXF[0..132]` (R18, R31). -/
  txf : Memory
  /-- `RXPOS`, 8 bits, legal 0 to 133 (R19). -/
  rxpos : Byte
  /-- `RXF[0..132]` (R20, R32). -/
  rxf : Memory
  /-- `ERR`, 1 bit (R21). -/
  err : Bool
  /-- `ECODE`, 4 bits, legal 0 to 7 (R21). -/
  ecode : Code
deriving DecidableEq, Repr

/-- What passes between the host and the block at one moment: the input a step takes, or the output it has given (R41,
R118, R120). It is one transaction's word or response, never a stream or a history (R26 (b), (e)). -/
inductive Port where
  /-- Nothing is presented and nothing is answered. -/
  | quiet
  /-- The host presents one command word (R41). -/
  | command (w : Word)
  /-- The host drives the hardware reset input (R123). -/
  | reset
  /-- The block answers the command it has just executed (R55). -/
  | response (r : Response)
deriving DecidableEq, Repr

/-- Why a step can stop. The spec stops nowhere (R107, R109, R133): both faults stand for an access to an offset
that does not exist (R30), which only a state outside R24 can ask for. Safe: no false claim becomes provable. -/
inductive Fault where
  /-- TXDATA (offset `3 + TXCNT`) or TXPOP (offset `TXPOS`) above offset 132. Safe (log 6). -/
  | txfOffset
  /-- RXBYTE (offset `RXPOS`) above offset 132. Safe (log 6). -/
  | rxfOffset
deriving DecidableEq, Repr

/-- Why the model can decline an instruction. -/
inductive Refusal where
  /-- Raised by an arm of `exec` for an instruction that has no meaning yet; no arm does. Safe. -/
  | notModelled (mnemonic : String)
deriving DecidableEq, Repr

/-- What the block makes of one command: its next state and, as an output that it does not keep (R26 (b)), the response
(R55); or a stop. -/
abbrev Reply := Host.Outcome (Block × Response) Fault Refusal

/-- What one step of the host's interface takes and gives: the block, which is all the state there is (R10), and on its port
the step's input before it and its output after it, since that step has no other argument and no other result (log 1,
log 2). No operation reads the port: the operations are functions of `Block` alone (`operation`, `command`, `commands` in
Machine/Command.lean), and `State.operate` in Machine/Ops.lean carries them over. -/
structure State extends Block where
  /-- The input of the step to come or the output of the step just done; no state of the block (R26 (b), (e)). -/
  port : Port
deriving DecidableEq, Repr

/-- Every piece of the block after reset (R28, R124): the start block number and `CRC_INIT`, all else zero. An empty
buffer list reads 0x00 at every offset. -/
def Block.reset : Block where
  crc := Config.crcInit
  blk := Config.blkFirst
  txcnt := 0
  txpos := 0
  txvalid := false
  txf := []
  rxpos := 0
  rxf := []
  err := false
  ecode := 0

/-- The machine right after reset (R28, R124), the host presenting nothing yet (R125; log 1). -/
def State.reset : State where
  toBlock := Block.reset
  port := .quiet

end Sys2Proof.Machine
end

