-- ==== Sys2Proof/Machine/Ops.lean ====
section
/-!
DEFINITION. The named operations over the frame buffers, the registers and the ports: byte reads and writes
(spec/00_scope.md R8, spec/20_memory.md R30), the response (spec/30_encoding.md R55), and error entry with its
counterpart (spec/60_exceptions.md R109, R114). What an operation does is a function of the block alone (`Reply`).
-/

namespace Sys2Proof.Machine

/-! ### Frame buffers -/

/-- What an offset that a buffer does not list reads as: the reset contents of both buffers (R28; log 7). -/
def Memory.unlisted : Byte := 0x00

/-- The byte a buffer holds at an offset. -/
def Memory.byteAt : Memory → Nat → Byte
  | [], _ => Memory.unlisted
  | (a, v) :: rest, x => if a = x then v else Memory.byteAt rest x

/-- List a cell at its place by offset. -/
def Memory.place : Memory → Nat → Byte → Memory
  | [], x, v => [(x, v)]
  | (a, w) :: rest, x, v => if x < a then (x, v) :: (a, w) :: rest else (a, w) :: Memory.place rest x v

/-- The buffer with offset `x` holding `v`, in canonical form: what reads as unlisted is not listed. -/
def Memory.write (m : Memory) (x : Nat) (v : Byte) : Memory :=
  let others := m.filter fun cell => !(cell.1 == x)
  if v = Memory.unlisted then others else Memory.place others x v

/-- The offsets of a buffer's list rise strictly from `low` on, lie inside the frame, and no listed byte is what an
unlisted offset reads as. -/
def Memory.wfFrom : Nat → Memory → Bool
  | _, [] => true
  | low, (a, v) :: rest =>
    decide (low ≤ a) && decide (a < Config.frameLen) && decide (v ≠ Memory.unlisted) && Memory.wfFrom (a + 1) rest

/-- The canonical form of a buffer. -/
def Memory.wf (m : Memory) : Bool := Memory.wfFrom 0 m

/-- `MemRead(B, x, 1)` (R8): none where the offset does not exist (R30). -/
def memRead (m : Memory) (x : Nat) : Option Byte :=
  if x < Config.frameLen then some (m.byteAt x) else none

/-- `MemWrite(B, x, 1, v)` (R8): none where the offset does not exist (R30). -/
def memWrite (m : Memory) (x : Nat) (v : Byte) : Option Memory :=
  if x < Config.frameLen then some (m.write x v) else none

/-- The 128 payload bytes of a frame, offsets 3 to 130 (R31, R32). -/
def payloadOf (m : Memory) : List Byte :=
  (List.range Config.payloadLen).map fun i => m.byteAt (3 + i)

/-- All 133 bytes of a frame in wire order (R31, R56). -/
def frameBytes (m : Memory) : List Byte :=
  (List.range Config.frameLen).map m.byteAt

/-! ### Register and port writes -/

/-- `CRC <- v`. -/
def Block.setCrc (b : Block) (v : Word) : Block := { b with crc := v }
/-- `BLK <- v`. -/
def Block.setBlk (b : Block) (v : Byte) : Block := { b with blk := v }
/-- `TXCNT <- v`. -/
def Block.setTxcnt (b : Block) (v : Byte) : Block := { b with txcnt := v }
/-- `TXPOS <- v`. -/
def Block.setTxpos (b : Block) (v : Byte) : Block := { b with txpos := v }
/-- `TXVALID <- v`. -/
def Block.setTxvalid (b : Block) (v : Bool) : Block := { b with txvalid := v }
/-- The transmit buffer becomes `m`. -/
def Block.setTxf (b : Block) (m : Memory) : Block := { b with txf := m }
/-- `RXPOS <- v`. -/
def Block.setRxpos (b : Block) (v : Byte) : Block := { b with rxpos := v }
/-- The receive buffer becomes `m`. -/
def Block.setRxf (b : Block) (m : Memory) : Block := { b with rxf := m }
/-- `ERR <- e` and `ECODE <- c`. -/
def Block.setRecord (b : Block) (e : Bool) (c : Code) : Block := { b with err := e, ecode := c }
/-- What is on the port becomes `p`; the block stays as it is. -/
def State.setPort (s : State) (p : Port) : State := { s with port := p }

/-! ### Responses and errors -/

/-- `RESP <- (0, d)`: the operation succeeds with data `d` (R55). -/
def answer (d : Word) (b : Block) : Reply := .next (b, { e := 0, d := d })

/-- The operation succeeds and returns no value (R8, R55). -/
def done (b : Block) : Reply := answer 0x0000 b

/-- The 4-bit code of an error (R108). -/
def errCode : ErrName → Code
  | .illop => 1
  | .rsvd => 2
  | .range => 3
  | .seq => 4
  | .txfull => 5
  | .txempty => 6
  | .rxfull => 7

/-- `raise E_X`, the one error entry (R109): the response carries the code, the record keeps the first error (R21), and
nothing else changes. It is the block's only exception; nothing is vectored or stacked (R107). -/
def raise (x : ErrName) (b : Block) : Reply :=
  .next (if b.err then b else b.setRecord true (errCode x), { e := errCode x, d := 0x0000 })

/-- The counterpart of a return (R114): the error record is cleared. -/
def clearRecord (b : Block) : Block := b.setRecord false 0

/-! ### The host's interface -/

/-- An operation of the block carried over to the interface: it sees the block alone, and what goes out on the port is its
response (R26 (b), R55; log 2). -/
def State.operate (op : Block → Reply) (s : State) : Host.Outcome State Fault Refusal :=
  match op s.toBlock with
  | .next (b, r) => .next { toBlock := b, port := .response r }
  | .fault x => .fault x
  | .refused x => .refused x

/-- A hardware reset (R123): whatever the block held, it gives the state of R28 and, being no command, no response
(log 4). -/
def hardwareReset : Host.Outcome State Fault Refusal :=
  .next { toBlock := Block.reset, port := .quiet }

/-- The block waits for the host (R125): nothing of the block changes, and no command gives no response (log 3). -/
def idle (s : State) : Host.Outcome State Fault Refusal :=
  .next (s.setPort .quiet)

/-- The response the step just done gave, none if it executed no command (R55). -/
def State.response (s : State) : Option Response :=
  match s.port with
  | .response r => some r
  | .quiet | .command _ | .reset => none

/-- The packed response `{E, D}`, `E` in bits 19:16 (R55). -/
def Response.packed (r : Response) : BitVec 20 := r.e ++ r.d

end Sys2Proof.Machine
end

