-- ==== Sys2Proof/Machine/Flags.lean ====
section
/-!
DEFINITION. The STATUS value and every flag in it (spec/10_state.md R22, R29), the verdict flags of the decoder
(spec/42_decoder.md R94), and the receive views (R23). All are functions of the state; none is stored.
-/

namespace Sys2Proof.Machine

/-- `TXDONE`: a built chunk has been popped to its end (R22). -/
def txDone (b : Block) : Bool := b.txvalid && b.txpos == 133#8

/-- `RXDONE`: a whole chunk has been received (R22, R94). -/
def rxDone (b : Block) : Bool := b.rxpos == 133#8

/-- `RXBLK = RXF[1]` (R23). -/
def rxBlk (b : Block) : Byte := b.rxf.byteAt 1

/-- `RXCMP = RXF[2]` (R23). -/
def rxCmp (b : Block) : Byte := b.rxf.byteAt 2

/-- `RXCRC = {RXF[131], RXF[132]}`, big-endian (R23, R33). -/
def rxCrc (b : Block) : Word := bigEndian (b.rxf.byteAt 131) (b.rxf.byteAt 132)

/-- `SOHOK`: the start marker is 0x01 (R94 (a), R58). -/
def sohOk (b : Block) : Bool := rxDone b && b.rxf.byteAt 0 == Config.soh

/-- `CMPOK`: the third byte is the complement of the second (R94 (b)). -/
def cmpOk (b : Block) : Bool := rxDone b && rxCmp b == complement (rxBlk b)

/-- `CRCOK`: the trailer is the CRC of the payload (R94 (c)). -/
def crcOk (b : Block) : Bool := rxDone b && crc16 (payloadOf b.rxf) == rxCrc b

/-- `RXOK`: all three checks hold (R22, R94). -/
def rxOk (b : Block) : Bool := sohOk b && cmpOk b && crcOk b

/-- `STATUS` (R22): `ECODE` in bits 11:8, then from bit 7 down ERR, RXOK, CRCOK, CMPOK, SOHOK, RXDONE, TXDONE, TXVALID;
bits 15:12 read as zero. -/
def status (b : Block) : Word :=
  0#4 ++ b.ecode ++ BitVec.ofBool b.err ++ BitVec.ofBool (rxOk b) ++ BitVec.ofBool (crcOk b)
    ++ BitVec.ofBool (cmpOk b) ++ BitVec.ofBool (sohOk b) ++ BitVec.ofBool (rxDone b)
    ++ BitVec.ofBool (txDone b) ++ BitVec.ofBool b.txvalid

end Sys2Proof.Machine
end

