-- ==== Sys2Proof/Machine/Operands.lean ====
section
/-!
DEFINITION. How an operation uses its operand, and the values it answers with: the register number space of RDREG
(spec/10_state.md R25), the offsets into the frame buffers (spec/20_memory.md R30 to R32) and zero extension
(R35). The operand's bits are taken from the command word in Decode.lean (spec/30_encoding.md R46 to R49).
-/

namespace Sys2Proof.Machine

/-- `zext_16` of a byte (R7, R35). -/
def zext16 (v : Byte) : Word := v.setWidth 16

/-- `reg(n)`, the value register number `n` presents (R25); none for 9 to 255. -/
def reg (b : Block) (n : Byte) : Option Word :=
  match n with
  | 0#8 => some b.crc
  | 1#8 => some (zext16 b.blk)
  | 2#8 => some (zext16 b.txcnt)
  | 3#8 => some (zext16 b.txpos)
  | 4#8 => some (zext16 b.rxpos)
  | 5#8 => some (status b)
  | 6#8 => some (zext16 (rxBlk b))
  | 7#8 => some (zext16 (rxCmp b))
  | 8#8 => some (rxCrc b)
  | _ => none

/-- The offset of payload byte `i` in a frame (R31, R32). -/
def payloadOffset (i : Nat) : Nat := 3 + i

/-- The offset TXDATA writes: `3 + TXCNT` (R15, R77). -/
def txdataOffset (b : Block) : Nat := payloadOffset b.txcnt.toNat

/-- The offset TXPOP reads: `TXPOS` (R16, R79). -/
def txpopOffset (b : Block) : Nat := b.txpos.toNat

/-- The offset RXBYTE writes: `RXPOS` (R19, R92). -/
def rxbyteOffset (b : Block) : Nat := b.rxpos.toNat

end Sys2Proof.Machine
end

