-- ==== Sys2Proof/Machine/CrcGenerator.lean ====
section
/-!
DEFINITION. The operations of the CRC-16 generator (spec/40_crc.md R70 to R73). They read and write `CRC` alone (R65).
-/

namespace Sys2Proof.Machine

/-- CRCCLR (R70): start a new computation. -/
def opCrcclr (b : Block) : Reply := done (b.setCrc Config.crcInit)

/-- The meaning of CRCCLR behind the host's interface. -/
def execCrcclr (s : State) : Host.Outcome State Fault Refusal := s.operate opCrcclr

/-- CRCBIT (R71): feed one bit. -/
def opCrcbit (d : Bit) (b : Block) : Reply := done (b.setCrc (crcUpdate b.crc d))

/-- The meaning of CRCBIT behind the host's interface. -/
def execCrcbit (b : Bit) (s : State) : Host.Outcome State Fault Refusal := s.operate (opCrcbit b)

/-- CRCBYTE d (R72): feed one byte, bit 7 first. -/
def opCrcbyte (d : Byte) (b : Block) : Reply := done (b.setCrc (crcByte b.crc d))

/-- The meaning of CRCBYTE behind the host's interface. -/
def execCrcbyte (d : Byte) (s : State) : Host.Outcome State Fault Refusal := s.operate (opCrcbyte d)

/-- CRCFLUSH (R73): feed the sixteen zero bits that finish a computation. -/
def opCrcflush (b : Block) : Reply := done (b.setCrc (crcFlush b.crc))

/-- The meaning of CRCFLUSH behind the host's interface. -/
def execCrcflush (s : State) : Host.Outcome State Fault Refusal := s.operate opCrcflush

end Sys2Proof.Machine
end

