-- ==== Sys2Proof/Machine/Decoder.lean ====
section
/-!
DEFINITION. The operations of the frame decoder (spec/42_decoder.md R91 to R93). They read and write only `RXPOS` and
`RXF` (R90), and the error record when they raise. The verdict is in Machine/Flags.lean (R94).
-/

namespace Sys2Proof.Machine

/-- RXCLR (R91): begin receiving a new chunk; the buffer is not cleared (R130). -/
def opRxclr (b : Block) : Reply := done (b.setRxpos 0)

/-- The meaning of RXCLR behind the host's interface. -/
def execRxclr (s : State) : Host.Outcome State Fault Refusal := s.operate opRxclr

/-- RXBYTE d (R92): take the next received byte, unless a whole chunk is in the buffer. -/
def opRxbyte (d : Byte) (b : Block) : Reply :=
  if b.rxpos = 133#8 then raise .rxfull b
  else match memWrite b.rxf (rxbyteOffset b) d with
    | some m => done ((b.setRxf m).setRxpos (b.rxpos + 1))
    | none => .fault .rxfOffset

/-- The meaning of RXBYTE behind the host's interface. -/
def execRxbyte (d : Byte) (s : State) : Host.Outcome State Fault Refusal := s.operate (opRxbyte d)

/-- RXPAY i (R93): answer payload byte `i` of a complete chunk, whatever the verdict. The range check comes first; a word
with such an `i` already raises E_RANGE at decode (R51), the rule gives the check here too (log 10). -/
def opRxpay (i : Byte) (b : Block) : Reply :=
  if topPayloadIndex < i.toNat then raise .range b
  else if !(rxDone b) then raise .seq b
  else match memRead b.rxf (payloadOffset i.toNat) with
    | some v => answer (zext16 v) b
    | none => .fault .rxfOffset

/-- The meaning of RXPAY behind the host's interface. -/
def execRxpay (i : Byte) (s : State) : Host.Outcome State Fault Refusal := s.operate (opRxpay i)

end Sys2Proof.Machine
end

