-- ==== Sys2Proof/Machine/Encoder.lean ====
section
/-!
DEFINITION. The operations of the frame encoder (spec/41_encoder.md R76 to R83). They read and write only `BLK`, `TXCNT`,
`TXPOS`, `TXVALID` and `TXF` (R75), and the error record when they raise.
-/

namespace Sys2Proof.Machine

/-- The padder of TXBUILD (R78): payload bytes `cnt` to 127 become 0xFF; no iteration when `cnt` is 128. -/
def padPayload (m : Memory) (cnt : Nat) : Memory :=
  (List.range' cnt (Config.payloadLen - cnt)).foldl (fun m i => m.write (payloadOffset i) Config.pad) m

/-- The buffer TXBUILD leaves (R78): padded payload, header for block `blk`, and the CRC of the payload after padding,
high byte at offset 131. -/
def builtFrame (m : Memory) (cnt : Nat) (blk : Byte) : Memory :=
  let p := padPayload m cnt
  let c := crc16 (payloadOf p)
  ((((p.write 0 Config.soh).write 1 blk).write 2 (complement blk)).write 131 (highByte c)).write 132 (lowByte c)

/-- TXCLR (R76): begin a new chunk; the buffer is not cleared (R130). -/
def opTxclr (b : Block) : Reply :=
  done (((b.setTxcnt 0).setTxpos 0).setTxvalid false)

/-- The meaning of TXCLR behind the host's interface. -/
def execTxclr (s : State) : Host.Outcome State Fault Refusal := s.operate opTxclr

/-- TXDATA d (R77): load the next payload byte, unless a built chunk stands in the buffer or 128 bytes are loaded. -/
def opTxdata (d : Byte) (b : Block) : Reply :=
  if b.txvalid then raise .seq b
  else if b.txcnt = 128#8 then raise .txfull b
  else match memWrite b.txf (txdataOffset b) d with
    | some m => done ((b.setTxf m).setTxcnt (b.txcnt + 1))
    | none => .fault .txfOffset

/-- The meaning of TXDATA behind the host's interface. -/
def execTxdata (d : Byte) (s : State) : Host.Outcome State Fault Refusal := s.operate (opTxdata d)

/-- TXBUILD (R78): pad, compute the CRC, write header and trailer; legal in every state. -/
def opTxbuild (b : Block) : Reply :=
  done (((b.setTxf (builtFrame b.txf b.txcnt.toNat b.blk)).setTxvalid true).setTxpos 0)

/-- The meaning of TXBUILD behind the host's interface. -/
def execTxbuild (s : State) : Host.Outcome State Fault Refusal := s.operate opTxbuild

/-- TXPOP (R79): answer the next byte of the built chunk. -/
def opTxpop (b : Block) : Reply :=
  if !b.txvalid then raise .seq b
  else if b.txpos = 133#8 then raise .txempty b
  else match memRead b.txf (txpopOffset b) with
    | some v => answer (zext16 v) (b.setTxpos (b.txpos + 1))
    | none => .fault .txfOffset

/-- The meaning of TXPOP behind the host's interface. -/
def execTxpop (s : State) : Host.Outcome State Fault Refusal := s.operate opTxpop

/-- TXREW (R80): the same chunk can be popped again. -/
def opTxrew (b : Block) : Reply := done (b.setTxpos 0)

/-- The meaning of TXREW behind the host's interface. -/
def execTxrew (s : State) : Host.Outcome State Fault Refusal := s.operate opTxrew

/-- BLKSET v (R81): set the block number. -/
def opBlkset (v : Byte) (b : Block) : Reply := done (b.setBlk v)

/-- The meaning of BLKSET behind the host's interface. -/
def execBlkset (v : Byte) (s : State) : Host.Outcome State Fault Refusal := s.operate (opBlkset v)

/-- BLKNEXT (R82): the next block number, modulo 256; 0 follows 255 (90_conflicts.md C5). -/
def opBlknext (b : Block) : Reply := done (b.setBlk (b.blk + 1))

/-- The meaning of BLKNEXT behind the host's interface. -/
def execBlknext (s : State) : Host.Outcome State Fault Refusal := s.operate opBlknext

/-- BLKRST (R83): the block number of the first chunk. -/
def opBlkrst (b : Block) : Reply := done (b.setBlk Config.blkFirst)

/-- The meaning of BLKRST behind the host's interface. -/
def execBlkrst (s : State) : Host.Outcome State Fault Refusal := s.operate opBlkrst

end Sys2Proof.Machine
end

