-- ==== Sys2Proof/Machine/System.lean ====
section
/-!
DEFINITION. The system operations (spec/43_system.md R101 to R104).
-/

namespace Sys2Proof.Machine

/-- NOP (R101): no state changes at all. -/
def opNop (b : Block) : Reply := done b

/-- The meaning of NOP behind the host's interface. -/
def execNop (s : State) : Host.Outcome State Fault Refusal := s.operate opNop

/-- RDREG n (R102): the value of register `n`; E_RANGE outside 0 to 8. A word with such an `n` already raises it at
decode (R51); the rule gives the check here too (log 10). -/
def opRdreg (n : Byte) (b : Block) : Reply :=
  match reg b n with
  | some v => answer v b
  | none => raise .range b

/-- The meaning of RDREG behind the host's interface. -/
def execRdreg (n : Byte) (s : State) : Host.Outcome State Fault Refusal := s.operate (opRdreg n)

/-- ERRCLR (R103): the error record is cleared, nothing else changes. -/
def opErrclr (b : Block) : Reply := done (clearRecord b)

/-- The meaning of ERRCLR behind the host's interface. -/
def execErrclr (s : State) : Host.Outcome State Fault Refusal := s.operate opErrclr

/-- SRST (R104): every piece of the block takes its reset value. -/
def opSrst (_ : Block) : Reply := done Block.reset

/-- The meaning of SRST behind the host's interface. -/
def execSrst (s : State) : Host.Outcome State Fault Refusal := s.operate opSrst

end Sys2Proof.Machine
end

