-- ==== Sys2Proof/Machine/Dispatch.lean ====
section
/-!
DEFINITION. One arm per operation: the meaning it calls.
-/

namespace Sys2Proof.Machine

def exec (i : Instr) (s : State) : Host.Outcome State Fault Refusal :=
  match i with
  | .nop => Sys2Proof.Machine.execNop s
  | .rdreg n => Sys2Proof.Machine.execRdreg n s
  | .errclr => Sys2Proof.Machine.execErrclr s
  | .srst => Sys2Proof.Machine.execSrst s
  | .crcclr => Sys2Proof.Machine.execCrcclr s
  | .crcbit b => Sys2Proof.Machine.execCrcbit b s
  | .crcbyte d => Sys2Proof.Machine.execCrcbyte d s
  | .crcflush => Sys2Proof.Machine.execCrcflush s
  | .txclr => Sys2Proof.Machine.execTxclr s
  | .txdata d => Sys2Proof.Machine.execTxdata d s
  | .txbuild => Sys2Proof.Machine.execTxbuild s
  | .txpop => Sys2Proof.Machine.execTxpop s
  | .txrew => Sys2Proof.Machine.execTxrew s
  | .blkset v => Sys2Proof.Machine.execBlkset v s
  | .blknext => Sys2Proof.Machine.execBlknext s
  | .blkrst => Sys2Proof.Machine.execBlkrst s
  | .rxclr => Sys2Proof.Machine.execRxclr s
  | .rxbyte d => Sys2Proof.Machine.execRxbyte d s
  | .rxpay i' => Sys2Proof.Machine.execRxpay i' s

end Sys2Proof.Machine
end

