-- ==== Sys2Proof/Machine/Step.lean ====
section
/-!
DEFINITION. One step: the block acts on what the host presents (spec/20_memory.md R41, R43,
spec/70_reset_and_hazards.md R123).
-/

namespace Sys2Proof.Machine

/-- A command word is decoded and executed, or raises its decode error (R51, R109); a hardware reset resets (R123);
when the host presents nothing the block waits (R125; log 3). -/
def step (s : State) : Host.Outcome State Fault Refusal :=
  match s.port with
  | .quiet | .response _ => idle s
  | .reset => hardwareReset
  | .command w =>
    match decode w with
    | .ok i => exec i s
    | .error x => s.operate (raise x)

/-- The host presents the command word the opcode table numbers `w`. -/
def State.withFetchWord (s : State) (nbits w : Nat) : State :=
  { s with port := .command (tableWord nbits w) }

end Sys2Proof.Machine
end

