-- ==== Sys2Proof/Machine/Command.lean ====
section
/-!
DEFINITION. The block by itself: its state is `Block` (spec/10_state.md R10), a command word or a whole command stream is
an argument and the responses are a result (R26 (b), (e)). `exec` and `step` carry this over to the host's interface.
-/

namespace Sys2Proof.Machine

/-- The operation of the block that a decoded command selects (spec/30_encoding.md R50). -/
def operation : Instr → Block → Reply
  | .nop => opNop
  | .rdreg n => opRdreg n
  | .errclr => opErrclr
  | .srst => opSrst
  | .crcclr => opCrcclr
  | .crcbit d => opCrcbit d
  | .crcbyte d => opCrcbyte d
  | .crcflush => opCrcflush
  | .txclr => opTxclr
  | .txdata d => opTxdata d
  | .txbuild => opTxbuild
  | .txpop => opTxpop
  | .txrew => opTxrew
  | .blkset v => opBlkset v
  | .blknext => opBlknext
  | .blkrst => opBlkrst
  | .rxclr => opRxclr
  | .rxbyte d => opRxbyte d
  | .rxpay i => opRxpay i

/-- What the block makes of one command word (R41, R51, R55): the word comes from the host and is not kept, the response
goes to the host and is not kept. -/
def command (w : Word) (b : Block) : Reply :=
  match decode w with
  | .ok i => operation i b
  | .error x => raise x b

/-- What the block makes of a command stream (R41): each word acts on the block the one before it left, and the responses
come in the order of the words. -/
def commands : List Word → Block → Host.Outcome (Block × List Response) Fault Refusal
  | [], b => .next (b, [])
  | w :: later, b =>
    match command w b with
    | .next (b', r) =>
      match commands later b' with
      | .next (b'', rs) => .next (b'', r :: rs)
      | .fault x => .fault x
      | .refused x => .refused x
    | .fault x => .fault x
    | .refused x => .refused x

end Sys2Proof.Machine
end

