-- ==== Sys2Proof/Machine/Pseudo.lean ====
section
/-!
DEFINITION. Sequences of operations: running one, the pseudo-instructions of spec/30_encoding.md R61, and the host's way
of sending a byte sequence (spec/41_encoder.md R87, spec/60_exceptions.md R118).
-/

namespace Sys2Proof.Machine

/-- The operations of a list, one after the other (R41), stopping at the first fault or refusal. -/
def execAll : List Instr → State → Host.Outcome State Fault Refusal
  | [], s => .next s
  | i :: rest, s =>
    match exec i s with
    | .next s' => execAll rest s'
    | .fault r => .fault r
    | .refused r => .refused r

/-- `CRC16 d0, ..., dk` (R61). -/
def crc16Seq (data : List Byte) : List Instr := .crcclr :: data.map .crcbyte ++ [.crcflush]

/-- `TXLOAD d0, ..., dk` (R61); at most 128 operands. -/
def txload (data : List Byte) : List Instr := .txclr :: data.map .txdata ++ [.txbuild]

/-- `TXSEND` (R61): pop the whole chunk. -/
def txsend : List Instr := List.replicate Config.frameLen .txpop

/-- `TXRESEND` (R61): pop the same chunk again. -/
def txresend : List Instr := .txrew :: txsend

/-- `RXFRAME d0, ..., d132` (R61): receive one chunk; exactly 133 operands. -/
def rxframe (data : List Byte) : List Instr := .rxclr :: data.map .rxbyte

/-- A byte sequence cut into pieces of 128, the last one shorter (R87); `fuel` bounds how many. -/
def piecesFuel : Nat → List Byte → List (List Byte)
  | 0, _ => []
  | fuel + 1, data =>
    if data.isEmpty then []
    else data.take Config.payloadLen :: piecesFuel fuel (data.drop Config.payloadLen)

/-- The payloads of a transfer (R87): none for an empty sequence. -/
def pieces (data : List Byte) : List (List Byte) := piecesFuel data.length data

/-- What a host does to send a byte sequence whose every chunk is acknowledged at once (R87, R118). -/
def sendBytes (data : List Byte) : List Instr :=
  .blkrst :: (pieces data).flatMap fun p => txload p ++ txsend ++ [.blknext]

end Sys2Proof.Machine
end

