-- ==== Sys2Proof/Safety.lean ====
section
/-!
DEFINITION. What counts as a good state: the invariants of spec/10_state.md R24, and a run without errors
(spec/60_exceptions.md R115).
-/

namespace Sys2Proof.Machine

/-- `TXF` holds a complete chunk whose true payload length is `cnt` (R17, R24, R86). -/
structure BuiltChunk (m : Memory) (cnt : Nat) : Prop where
  startMarker : m.byteAt 0 = 0x01
  complement : m.byteAt 2 = 255 - m.byteAt 1
  padding : ∀ i, cnt ≤ i → i ≤ 127 → m.byteAt (3 + i) = 0xFF
  trailer : m.byteAt 131 ++ m.byteAt 132 = crc16 (payloadOf m)

/-- The states that satisfy R24, with both buffers in canonical form. Every reachable state is one. -/
structure State.Legal (s : State) : Prop where
  txcnt_le : s.txcnt.toNat ≤ 128
  txpos_le : s.txpos.toNat ≤ 133
  rxpos_le : s.rxpos.toNat ≤ 133
  ecode_le : s.ecode.toNat ≤ 7
  err_iff : s.err = false ↔ s.ecode = 0
  txpos_zero : s.txvalid = false → s.txpos = 0
  built : s.txvalid = true → BuiltChunk s.txf s.txcnt.toNat
  txf_wf : s.txf.wf = true
  rxf_wf : s.rxf.wf = true

/-- No operation has raised an error since the record was last cleared (R21, R115). The block itself runs on when it
is not so (R109; log 14). -/
def State.errorFree (s : State) : Bool := !s.err

end Sys2Proof.Machine
end

