-- ==== Sys2Proof/Certificates/Slice0/Obligations.lean ====
section
/-!
DEFINITION. The statements about the block, from the numbered rules of spec/. The helpers under `Sys2Proof.Claims` spell
the spec's words out, without the model's own operations where they can.
-/

namespace Sys2Proof.Claims

open Sys2Proof.Machine

/-- The state in which the host presents word `w` (R120). -/
def present (w : Word) (s : State) : State := { s with port := .command w }

/-- The state after a success that returns no value (R8, R55). -/
def answered (s : State) : State := { s with port := .response { e := 0, d := 0x0000 } }

/-- The state after error code `e` is raised (R109): response, record with the first error kept, nothing else. -/
def raised (e : Code) (s : State) : State :=
  { s with
    err := true
    ecode := if s.err then s.ecode else e
    port := .response { e := e, d := 0x0000 } }

/-- Format N of opcode `opc` (R46): with `ARG` 0x00 it is the operation `i`, with any other `ARG` it raises E_RSVD. -/
def IsFormatN (opc : Byte) (i : Instr) : Prop :=
  ∀ (s : State) (arg : Byte),
    step (present (opc ++ arg) s) = if arg = 0x00 then exec i s else .next (raised 2 s)

/-- Format B of opcode `opc` (R47): every `ARG` is the operand. -/
def IsFormatB (opc : Byte) (f : Byte → Instr) : Prop :=
  ∀ (s : State) (arg : Byte), step (present (opc ++ arg) s) = exec (f arg) s

/-- The state of R28, value by value. -/
def resetBlock : Block :=
  { crc := 0x0000, blk := 0x01, txcnt := 0, txpos := 0, txvalid := false, txf := [], rxpos := 0, rxf := [],
    err := false, ecode := 0 }

/-- The counters in their legal ranges (R10, R24). Every run keeps them so (`Obligations.LegalStateIsKept`). -/
def InRange (s : State) : Prop :=
  s.txcnt.toNat ≤ 128 ∧ s.txpos.toNat ≤ 133 ∧ s.rxpos.toNat ≤ 133

/-- The opcodes of format N and their operations (R46, R50). -/
def formatNOps : List (Byte × Instr) :=
  [(0x00, .nop), (0x02, .errclr), (0x03, .srst), (0x10, .crcclr), (0x13, .crcflush), (0x20, .txclr),
    (0x22, .txbuild), (0x23, .txpop), (0x24, .txrew), (0x26, .blknext), (0x27, .blkrst), (0x30, .rxclr)]

/-- The nineteen opcodes (R50). -/
def opcodes : List Byte :=
  [0x00, 0x01, 0x02, 0x03, 0x10, 0x11, 0x12, 0x13, 0x20, 0x21, 0x22, 0x23, 0x24, 0x25, 0x26, 0x27, 0x30, 0x31, 0x32]

/-- The opcodes of format N. -/
def formatNOpcodes : List Byte := formatNOps.map Prod.fst

/-- How many of the 65536 command words `{OPC, ARG}` decode to a given result. -/
def countWords (p : Except ErrName Instr → Bool) : Nat :=
  ((List.range 256).map fun opc =>
    ((List.range 256).filter fun arg => p (decode (BitVec.ofNat 8 opc ++ BitVec.ofNat 8 arg))).length).sum

/-- The error code of a command: the first that applies in the order of R110, 0 if none does. -/
def firstError (w : Word) (s : State) : Code :=
  let opc : Byte := w.extractLsb' 8 8
  let arg : Byte := w.extractLsb' 0 8
  if opc ∉ opcodes then 1
  else if (opc ∈ formatNOpcodes ∧ arg ≠ 0x00) ∨ (opc = 0x11 ∧ arg.extractLsb' 1 7 ≠ 0) then 2
  else if (opc = 0x01 ∧ 8 < arg.toNat) ∨ (opc = 0x32 ∧ 127 < arg.toNat) then 3
  else if (opc = 0x21 ∧ s.txvalid = true) ∨ (opc = 0x23 ∧ s.txvalid = false) ∨ (opc = 0x32 ∧ s.rxpos ≠ 133) then 4
  else if opc = 0x21 ∧ s.txcnt = 128 then 5
  else if opc = 0x23 ∧ s.txpos = 133 then 6
  else if opc = 0x31 ∧ s.rxpos = 133 then 7
  else 0

/-- An outcome with its error record put aside. -/
def withoutRecord : Host.Outcome State Fault Refusal → Host.Outcome State Fault Refusal
  | .next t => .next { t with err := false, ecode := 0 }
  | .fault r => .fault r
  | .refused r => .refused r

/-- An outcome with its error record and its response put aside. -/
def withoutRecordAndResponse : Host.Outcome State Fault Refusal → Host.Outcome State Fault Refusal
  | .next t => .next { t with err := false, ecode := 0, port := .quiet }
  | .fault r => .fault r
  | .refused r => .refused r

/-- The register number space (R25): `reg(n)` for `n` in 0 to 8. -/
def registerView (s : State) (n : Nat) : Word :=
  if n = 0 then s.crc
  else if n = 1 then s.blk.setWidth 16
  else if n = 2 then s.txcnt.setWidth 16
  else if n = 3 then s.txpos.setWidth 16
  else if n = 4 then s.rxpos.setWidth 16
  else if n = 5 then status s.toBlock
  else if n = 6 then (s.rxf.byteAt 1).setWidth 16
  else if n = 7 then (s.rxf.byteAt 2).setWidth 16
  else s.rxf.byteAt 131 ++ s.rxf.byteAt 132

/-- Eight updates with the bits of `d`, bit 7 first (R67). -/
def eightUpdates (c : Word) (d : Byte) : Word :=
  crcUpdate (crcUpdate (crcUpdate (crcUpdate (crcUpdate (crcUpdate (crcUpdate (crcUpdate c
    (d.extractLsb' 7 1)) (d.extractLsb' 6 1)) (d.extractLsb' 5 1)) (d.extractLsb' 4 1)) (d.extractLsb' 3 1))
    (d.extractLsb' 2 1)) (d.extractLsb' 1 1)) (d.extractLsb' 0 1)

/-- The eight CRCBIT operations of a byte, bit 7 first (R72). -/
def eightCrcbits (d : Byte) : List Instr :=
  [.crcbit (d.extractLsb' 7 1), .crcbit (d.extractLsb' 6 1), .crcbit (d.extractLsb' 5 1), .crcbit (d.extractLsb' 4 1),
    .crcbit (d.extractLsb' 3 1), .crcbit (d.extractLsb' 2 1), .crcbit (d.extractLsb' 1 1), .crcbit (d.extractLsb' 0 1)]

/-- One shift of the direct form (R63 (e)). -/
def directShift (c : Word) : Word := if c.getLsbD 15 then (c <<< 1) ^^^ 0x1021 else c <<< 1

/-- One byte of the direct form (R63 (e)): XOR into the high byte, then eight shifts. -/
def directByte (c : Word) (d : Byte) : Word := directShift^[8] (c ^^^ (d ++ 0x00#8))

/-- Flip bit `k` of the byte at offset `x` of a buffer. -/
def flipBit (m : Memory) (x k : Nat) : Memory := m.write x (m.byteAt x ^^^ (0x01#8 <<< k))

/-- The data answered by a sequence of operations, and the state it ends in; none if one of them does not answer. -/
def answers : List Instr → State → Option (List Word × State)
  | [], s => some ([], s)
  | i :: rest, s =>
    match exec i s with
    | .next t =>
      match t.response, answers rest t with
      | some r, some (ds, u) => some (r.d :: ds, u)
      | _, _ => none
    | .fault _ => none
    | .refused _ => none

/-- The group of an operation, `OPC[7:4]` (R50): 0 system, 1 CRC generator, 2 encoder, 3 decoder. -/
def group : Instr → Nat
  | .nop | .rdreg _ | .errclr | .srst => 0
  | .crcclr | .crcbit _ | .crcbyte _ | .crcflush => 1
  | .txclr | .txdata _ | .txbuild | .txpop | .txrew | .blkset _ | .blknext | .blkrst => 2
  | .rxclr | .rxbyte _ | .rxpay _ => 3

/-- The last step answered a success. -/
def Succeeded (s : State) : Prop := ∃ d : Word, s.port = .response { e := 0, d := d }

end Sys2Proof.Claims

open Sys2Proof Sys2Proof.Machine Sys2Proof.Claims

/-! ### Steps, decode and errors -/

/-- R41, R43, R51: a step runs the operation that the command word presented decodes to, and a word that does not decode
raises. (That the word is presented on `State.port` is the model's, log 1.) -/
def Obligations.StepRunsTheDecodedInstruction : Prop :=
  ∀ (s : State) (w : Word), s.port = .command w →
    (∀ i, decode w = .ok i → wellFormed i = true ∧ step s = exec i s) ∧
    (∀ x, decode w = .error x → step s = .next (raised (errCode x) s))

/-- R28, R104, R124: SRST gives every piece of state its reset value, the model's reset state has the same values, and
the registers then read 0 but for BLK, which reads 1. -/
def Obligations.SrstGivesTheResetState : Prop :=
  (∀ s : State, exec .srst s =
    .next { toBlock := resetBlock, port := .response { e := 0, d := 0x0000 } }) ∧
  IsFormatN 0x03 .srst ∧
  State.reset.toBlock = resetBlock ∧
  (∀ x, (resetBlock.txf).byteAt x = 0x00 ∧ (resetBlock.rxf).byteAt x = 0x00) ∧
  (∀ s : State, s.toBlock = resetBlock →
    status s.toBlock = 0x0000 ∧ reg s.toBlock 0 = some 0x0000 ∧ reg s.toBlock 1 = some 0x0001 ∧
    ∀ n : Byte, 2 ≤ n.toNat → n.toNat ≤ 8 → reg s.toBlock n = some 0x0000)

/-- R123: the hardware reset, taken between two operations, has the effect of SRST on every piece of the block. (That
it comes on the port and gives no response is the model's, log 4.) -/
def Obligations.HardwareResetMatchesSrst : Prop :=
  ∀ s : State, s.port = .reset →
    ∃ t u, step s = .next t ∧ exec .srst s = .next u ∧ t.toBlock = u.toBlock ∧ t.port = .quiet

/-- R125 and log 3 (the model's choice): when the host presents nothing a step changes nothing of the block, and being no
command it gives no response. Any of the operations may come first. -/
def Obligations.BlockWaitsWithoutInput : Prop :=
  (∀ s : State, (s.port = .quiet ∨ ∃ r, s.port = .response r) → step s = .next { s with port := .quiet }) ∧
  (∀ i : Instr, wellFormed i = true → ∃ t r, step (present (encode i) State.reset) = .next t ∧ t.port = .response r)

/-- R50, R51 on a few words written out from the encodings: one or more of every group, and words that raise. -/
def Obligations.SampleWordsDecode : Prop :=
  decode 0b0000000000000000 = .ok .nop ∧
  decode 0b0000000100000101 = .ok (.rdreg 5) ∧
  decode 0b0001000100000001 = .ok (.crcbit 1) ∧
  decode 0b0001001000110001 = .ok (.crcbyte 0x31) ∧
  decode 0b0010000101001000 = .ok (.txdata 0x48) ∧
  decode 0b0010001100000000 = .ok .txpop ∧
  decode 0b0011000111111110 = .ok (.rxbyte 0xFE) ∧
  decode 0b0011001001111111 = .ok (.rxpay 127) ∧
  decode 0b0000010000000000 = .error .illop ∧
  decode 0b0001000110000001 = .error .rsvd ∧
  decode 0b0011001010000000 = .error .range

/-- R51: the four steps of decode, and that decode and encode are inverse on the legal words. -/
def Obligations.DecodeFollowsTheOpcodeMap : Prop :=
  (∀ opc arg : Byte, opc ∉ opcodes → decode (opc ++ arg) = .error .illop) ∧
  (∀ (row : Byte × Instr) (arg : Byte), row ∈ formatNOps →
    decode (row.1 ++ arg) = if arg = 0x00 then .ok row.2 else .error .rsvd) ∧
  (∀ arg : Byte, decode (0x11#8 ++ arg) =
    if arg.extractLsb' 1 7 = 0 then .ok (.crcbit (arg.extractLsb' 0 1)) else .error .rsvd) ∧
  (∀ arg : Byte, decode (0x01#8 ++ arg) = if 8 < arg.toNat then .error .range else .ok (.rdreg arg)) ∧
  (∀ arg : Byte, decode (0x32#8 ++ arg) = if 127 < arg.toNat then .error .range else .ok (.rxpay arg)) ∧
  (∀ arg : Byte,
    decode (0x12#8 ++ arg) = .ok (.crcbyte arg) ∧ decode (0x21#8 ++ arg) = .ok (.txdata arg) ∧
    decode (0x25#8 ++ arg) = .ok (.blkset arg) ∧ decode (0x31#8 ++ arg) = .ok (.rxbyte arg)) ∧
  (∀ w i, decode w = .ok i ↔ wellFormed i = true ∧ encode i = w)

/-- R51, last sentence, for every well-formed operation with every operand: no bit of an encoding is dropped. -/
def Obligations.EncodeThenDecode : Prop :=
  ∀ i : Instr, wellFormed i = true → decode (encode i) = .ok i

/-- R52: which of the 65536 words are illegal, reserved and out of range, how many there are of each and how many are
legal, and that a word of the first three kinds changes nothing but the error record. -/
def Obligations.ReservedWordsAreCounted : Prop :=
  (∀ opc arg : Byte,
    (decode (opc ++ arg) = .error .illop ↔ opc ∉ opcodes) ∧
    (decode (opc ++ arg) = .error .rsvd ↔
      (opc ∈ formatNOpcodes ∧ arg ≠ 0x00) ∨ (opc = 0x11 ∧ arg.extractLsb' 1 7 ≠ 0)) ∧
    (decode (opc ++ arg) = .error .range ↔ (opc = 0x01 ∧ 8 < arg.toNat) ∨ (opc = 0x32 ∧ 127 < arg.toNat))) ∧
  countWords (fun r => r == .error .illop) = 60672 ∧
  countWords (fun r => r == .error .rsvd) = 3060 + 254 ∧
  countWords (fun r => r == .error .range) = 247 + 128 ∧
  countWords (fun r => match r with | .ok _ => true | .error _ => false) = 1175 ∧
  (∀ (s : State) (w : Word) (x : ErrName), decode w = .error x →
    (x = .illop ∨ x = .rsvd ∨ x = .range) ∧ step (present w s) = .next (raised (errCode x) s))

/-- R50: the match and mask columns. A word selects the row of the operation it decodes to, and no two rows select the
same word. -/
def Obligations.RowsNeverOverlap : Prop :=
  (∀ w i, decode w = .ok i → rowSelects (rowOf i) w = true) ∧
  (∀ (w : Word) (i j : Instr), rowSelects (rowOf i) w = true → rowSelects (rowOf j) w = true →
    rowOf i = rowOf j)

/-- R109: error entry, and that the next command runs as if the failed one had been a NOP, apart from the record
(which RDREG 5, the word 0x0105, reads). -/
def Obligations.ErrorEntry : Prop :=
  (∀ (x : ErrName) (s : State), s.operate (raise x) = .next (raised (errCode x) s)) ∧
  (errCode .illop = 1 ∧ errCode .rsvd = 2 ∧ errCode .range = 3 ∧ errCode .seq = 4 ∧ errCode .txfull = 5 ∧
    errCode .txempty = 6 ∧ errCode .rxfull = 7) ∧
  (∀ (x : ErrName) (s : State) (w : Word),
    withoutRecordAndResponse (step (present w (raised (errCode x) s))) =
      withoutRecordAndResponse (step (present w (answered s)))) ∧
  (∀ (x : ErrName) (s : State) (w : Word), w ≠ 0x0105 →
    withoutRecord (step (present w (raised (errCode x) s))) =
      withoutRecord (step (present w (answered s))))

/-- R21: the record keeps the first error until ERRCLR (0x0200), SRST (0x0300) or reset, and `ERR = 0` exactly when `ECODE = 0`. -/
def Obligations.FirstErrorIsKept : Prop :=
  (State.reset.err = false ∧ State.reset.ecode = 0) ∧
  (∀ (w : Word) (s t : State), step (present w s) = .next t → s.err = true → w ≠ 0x0200 → w ≠ 0x0300 →
    t.err = true ∧ t.ecode = s.ecode) ∧
  (∀ (w : Word) (s t : State) (r : Response), step (present w s) = .next t → s.err = false → w ≠ 0x0200 →
    w ≠ 0x0300 → t.port = .response r →
    (r.e = 0 → t.err = false ∧ t.ecode = s.ecode) ∧ (r.e ≠ 0 → t.err = true ∧ t.ecode = r.e)) ∧
  (∀ (s t : State) (w : Word), w = 0x0200 ∨ w = 0x0300 → step (present w s) = .next t →
    t.err = false ∧ t.ecode = 0) ∧
  (∀ s t : State, (s.err = false ↔ s.ecode = 0) → step s = .next t → (t.err = false ↔ t.ecode = 0))

/-- R110: exactly one code is reported, the first that applies. -/
def Obligations.FirstApplicableErrorIsReported : Prop :=
  ∀ (w : Word) (s : State), InRange s →
    ∃ t d, step (present w s) = .next t ∧ t.port = .response { e := firstError w s, d := d }

/-- R107, R109: a command that reports an error has no effect beyond its response and the record, in every state. -/
def Obligations.ErrorsArePrecise : Prop :=
  ∀ (w : Word) (s t : State) (r : Response), step (present w s) = .next t → t.port = .response r → r.e ≠ 0 →
    t = raised r.e s ∧ r.d = 0x0000

/-- R55: every command word gets one response, with the data the operation returns. -/
def Obligations.EveryCommandIsAnswered : Prop :=
  (∀ (w : Word) (s : State), InRange s →
    ∃ t r, step (present w s) = .next t ∧ t.port = .response r ∧
      (r.e ≠ 0 → r.d = 0x0000) ∧
      (r.e = 0 → ∃ i, decode w = .ok i ∧
        (∀ n, i = .rdreg n → r.d = registerView s n.toNat) ∧
        (i = .txpop → r.d = (s.txf.byteAt s.txpos.toNat).setWidth 16) ∧
        (∀ k, i = .rxpay k → r.d = (s.rxf.byteAt (3 + k.toNat)).setWidth 16) ∧
        ((∀ n, i ≠ .rdreg n) → i ≠ .txpop → (∀ k, i ≠ .rxpay k) → r.d = 0x0000))) ∧
  (∀ r : Response, r.packed.extractLsb' 16 4 = r.e ∧ r.packed.extractLsb' 0 16 = r.d)

/-! ### System operations and registers -/

/-- R22: every bit of STATUS, which RDREG 5 reads. -/
def Obligations.StatusBits : Prop :=
  ∀ s : State,
    (status s.toBlock).getLsbD 0 = s.txvalid ∧
    (status s.toBlock).getLsbD 1 = (s.txvalid && decide (s.txpos.toNat = 133)) ∧
    (status s.toBlock).getLsbD 2 = decide (s.rxpos.toNat = 133) ∧
    (status s.toBlock).getLsbD 3 = (decide (s.rxpos.toNat = 133) && decide (s.rxf.byteAt 0 = 0x01)) ∧
    (status s.toBlock).getLsbD 4 =
      (decide (s.rxpos.toNat = 133) && decide ((s.rxf.byteAt 2).toNat = 255 - (s.rxf.byteAt 1).toNat)) ∧
    (status s.toBlock).getLsbD 5 =
      (decide (s.rxpos.toNat = 133) && decide (crc16 (payloadOf s.rxf) = s.rxf.byteAt 131 ++ s.rxf.byteAt 132)) ∧
    (status s.toBlock).getLsbD 6 = ((status s.toBlock).getLsbD 3 && (status s.toBlock).getLsbD 4 && (status s.toBlock).getLsbD 5) ∧
    (status s.toBlock).getLsbD 7 = s.err ∧
    (status s.toBlock).extractLsb' 8 4 = s.ecode ∧
    (status s.toBlock).extractLsb' 12 4 = 0 ∧
    exec (.rdreg 5) s = .next { s with port := .response { e := 0, d := status s.toBlock } }

/-- R25, R102: RDREG answers the register's value for 0 to 8, raises E_RANGE for 9 to 255, and changes no state. -/
def Obligations.RegisterReads : Prop :=
  (∀ (s : State) (n : Byte), exec (.rdreg n) s =
    if n.toNat ≤ 8 then .next { s with port := .response { e := 0, d := registerView s n.toNat } }
    else .next (raised 3 s)) ∧
  (∀ (s : State) (arg : Byte), step (present (0x01#8 ++ arg) s) = exec (.rdreg arg) s)

/-- R101: NOP changes nothing and answers (0, 0x0000). -/
def Obligations.NopChangesNothing : Prop :=
  (∀ s : State, exec .nop s = .next (answered s)) ∧ IsFormatN 0x00 .nop

/-- R103: ERRCLR clears the record and nothing else; a malformed one raises like any other word. -/
def Obligations.ErrclrClearsTheRecord : Prop :=
  (∀ s : State, exec .errclr s = .next (answered { s with err := false, ecode := 0 })) ∧
  IsFormatN 0x02 .errclr ∧
  (∀ s t : State, exec .errclr s = .next t → (status t.toBlock).extractLsb' 7 5 = 0)

/-! ### The CRC-16 generator -/

/-- R66, bit by bit: bit `i` is the bit below (the incoming bit for bit 0), XORed with bit `i` of 0x1021 when the old top
bit was set; so bit 0 of the result is `b ^ top`. -/
def Obligations.CrcUpdateBits : Prop :=
  (∀ (c : Word) (b : Bit) (i : Nat), i < 16 →
    (crcUpdate c b).getLsbD i =
      ((if i = 0 then b.getLsbD 0 else c.getLsbD (i - 1)) ^^ (c.getLsbD 15 && (0x1021#16).getLsbD i))) ∧
  (∀ (c : Word) (b : Bit), (crcUpdate c b).getLsbD 0 = (b.getLsbD 0 ^^ c.getLsbD 15))

/-- R70: CRCCLR writes 0x0000 to CRC and nothing else. -/
def Obligations.CrcclrClearsCrc : Prop :=
  (∀ s : State, exec .crcclr s = .next (answered { s with crc := 0x0000 })) ∧ IsFormatN 0x10 .crcclr

/-- R71: CRCBIT feeds one bit; a word with any of `ARG[7:1]` set raises E_RSVD. -/
def Obligations.CrcbitFeedsOneBit : Prop :=
  (∀ (s : State) (b : Bit), exec (.crcbit b) s = .next (answered { s with
    crc := if s.crc.getLsbD 15 then ((s.crc <<< 1) ||| b.setWidth 16) ^^^ 0x1021
      else (s.crc <<< 1) ||| b.setWidth 16 })) ∧
  (∀ (s : State) (arg : Byte), step (present (0x11#8 ++ arg) s) =
    if arg.extractLsb' 1 7 = 0 then exec (.crcbit (arg.extractLsb' 0 1)) s else .next (raised 2 s))

/-- Derived from R67 and R71: CRCBYTE is eight updates, bit 7 first, the same as eight CRCBITs (a sentence R72 marks as
the spec's own inference); from zero a byte only shifts in. -/
def Obligations.CrcbyteIsEightBits : Prop :=
  (∀ (s : State) (d : Byte),
    exec (.crcbyte d) s = .next (answered { s with crc := eightUpdates s.crc d }) ∧
    exec (.crcbyte d) s = execAll (eightCrcbits d) s) ∧
  (∀ (c : Word) (d : Byte), crcByte c d = eightUpdates c d) ∧
  (∀ d : Byte, eightUpdates 0x0000 d = d.setWidth 16) ∧
  IsFormatB 0x12 .crcbyte

/-- Derived from R67, R68, R71 and R72: CRCFLUSH is sixteen zero bits, the same as sixteen CRCBIT 0 and as two CRCBYTE
0x00 (a sentence R73 marks as the spec's own inference). -/
def Obligations.CrcflushIsSixteenZeroBits : Prop :=
  (∀ s : State,
    exec .crcflush s = .next (answered { s with crc := (fun c => crcUpdate c 0)^[16] s.crc }) ∧
    exec .crcflush s = execAll (List.replicate 16 (.crcbit 0)) s ∧
    exec .crcflush s = execAll [.crcbyte 0x00, .crcbyte 0x00] s) ∧
  (∀ c : Word, crcFlush c = (fun c => crcUpdate c 0)^[16] c) ∧
  crcFlush 0x0000 = 0x0000 ∧
  IsFormatN 0x13 .crcflush

/-- R69, R74: CRCCLR, one CRCBYTE per byte and CRCFLUSH complete from every state and leave `crc16` of the bytes in CRC,
which RDREG 0 then reads; nothing else of the block changes. -/
def Obligations.CrcSequenceComputesCrc16 : Prop :=
  ∀ (data : List Byte) (s : State),
    execAll (.crcclr :: data.map .crcbyte ++ [.crcflush]) s = .next (answered { s with crc := crc16 data }) ∧
    crc16 data = (fun c => crcUpdate c 0)^[16] (data.foldl eightUpdates 0x0000) ∧
    exec (.rdreg 0) (answered { s with crc := crc16 data }) =
      .next { s with crc := crc16 data, port := .response { e := 0, d := crc16 data } }

/-- R63 (b): `crc16` is linear on sequences of equal length, and zero on zeros. -/
def Obligations.Crc16IsLinear : Prop :=
  (∀ a b : List Byte, a.length = b.length →
    crc16 (List.zipWith (fun x y => x ^^^ y) a b) = crc16 a ^^^ crc16 b) ∧
  (∀ n : Nat, crc16 (List.replicate n 0x00) = 0x0000)

/-- R63 (c): zero bytes in front do not change `crc16`. -/
def Obligations.LeadingZerosAreInvisible : Prop :=
  ∀ (n : Nat) (data : List Byte), crc16 (List.replicate n 0x00 ++ data) = crc16 data

/-- R63 (d): feeding the data's own CRC, high byte first, in place of the flush leaves the register zero. -/
def Obligations.ResidueIsZero : Prop :=
  (∀ c : Word, crcByte (crcByte c ((crcFlush c).extractLsb' 8 8)) ((crcFlush c).extractLsb' 0 8) = 0x0000) ∧
  (∀ data : List Byte,
    (data ++ [(crc16 data).extractLsb' 8 8, (crc16 data).extractLsb' 0 8]).foldl crcByte 0x0000 = 0x0000)

/-- R63 (e): the direct form, without a flush, computes the same function. -/
def Obligations.DirectFormAgrees : Prop :=
  ∀ data : List Byte, data.foldl directByte 0x0000 = crc16 data

/-- R63 (f): a change of one bit, in data of any length, changes `crc16`. -/
def Obligations.SingleBitChangesCrc16 : Prop :=
  ∀ (data : List Byte) (i k : Nat), i < data.length → k < 8 →
    crc16 (data.set i (data.getD i 0x00 ^^^ (0x01#8 <<< k))) ≠ crc16 data

/-- R63 (a): over GF(2), with `P = x^16 + x^12 + x^5 + 1` and bit `i` of a value the coefficient of `x^i`, one update is
`(c x + b) mod P` and `crc16` is `(M x^16) mod P`. -/
def Obligations.Crc16IsPolynomialRemainder : Prop :=
  let ofBits : (n : Nat) → BitVec n → Polynomial (ZMod 2) := fun n v =>
    ∑ i ∈ Finset.range n, if v.getLsbD i then Polynomial.X ^ i else 0
  let divisor : Polynomial (ZMod 2) := Polynomial.X ^ 16 + Polynomial.X ^ 12 + Polynomial.X ^ 5 + 1
  let message : List Byte → Polynomial (ZMod 2) := fun data =>
    data.foldl (fun m d => m * Polynomial.X ^ 8 + ofBits 8 d) 0
  (∀ (c : Word) (b : Bit),
    ofBits 16 (crcUpdate c b) = (ofBits 16 c * Polynomial.X + ofBits 1 b) %ₘ divisor) ∧
  (∀ data : List Byte, ofBits 16 (crc16 data) = (message data * Polynomial.X ^ 16) %ₘ divisor)

/-! ### The frame encoder -/

/-- R76, R91: TXCLR and RXCLR set their counters and flags to 0 in every state and touch nothing else, the buffers
included. -/
def Obligations.ClearsStartANewChunk : Prop :=
  (∀ s : State,
    exec .txclr s = .next (answered { s with txcnt := 0, txpos := 0, txvalid := false }) ∧
    exec .rxclr s = .next (answered { s with rxpos := 0 })) ∧
  (∀ s t : State, exec .txclr s = .next t → (status t.toBlock).extractLsb' 0 2 = 0) ∧
  (∀ s t : State, exec .rxclr s = .next t → (status t.toBlock).extractLsb' 2 5 = 0) ∧
  IsFormatN 0x20 .txclr ∧ IsFormatN 0x30 .rxclr

/-- R77: TXDATA. A built chunk refuses it (E_SEQ, also when 128 bytes are loaded), 128 loaded bytes refuse it
(E_TXFULL), with fewer the byte goes to offset `3 + TXCNT` and TXCNT counts it. (TXCNT above 128, which no run reaches, is
in `AccessBeyondTheFrameFaults`, log 6.) -/
def Obligations.TxdataLoadsOneByte : Prop :=
  (∀ (s : State) (d : Byte), s.txvalid = true → exec (.txdata d) s = .next (raised 4 s)) ∧
  (∀ (s : State) (d : Byte), s.txvalid = false → s.txcnt.toNat = 128 → exec (.txdata d) s = .next (raised 5 s)) ∧
  (∀ (s : State) (d : Byte), s.txvalid = false → s.txcnt.toNat < 128 →
    ∃ t, exec (.txdata d) s = .next t ∧
      t = answered { s with txf := t.txf, txcnt := t.txcnt } ∧
      t.txcnt.toNat = s.txcnt.toNat + 1 ∧
      t.txf.byteAt (3 + s.txcnt.toNat) = d ∧
      (∀ x, x ≠ 3 + s.txcnt.toNat → t.txf.byteAt x = s.txf.byteAt x)) ∧
  IsFormatB 0x21 .txdata

/-- R78: TXBUILD, in every state. Every byte of the frame it leaves, the two flags and TXPOS, and nothing else; the frame
is `build_chunk` of BLK and the loaded bytes; with nothing loaded the trailer is 0xED 0xA9; a second TXBUILD keeps
payload and trailer. -/
def Obligations.TxbuildWritesTheFrame : Prop :=
  (∀ s : State, ∃ t, exec .txbuild s = .next t ∧
    t = answered { s with txf := t.txf, txvalid := true, txpos := 0 } ∧
    (status t.toBlock).getLsbD 0 = true ∧ (status t.toBlock).getLsbD 1 = false ∧
    t.txf.byteAt 0 = 0x01 ∧ t.txf.byteAt 1 = s.blk ∧ (t.txf.byteAt 2).toNat = 255 - s.blk.toNat ∧
    (∀ i, i < 128 → t.txf.byteAt (3 + i) = if s.txcnt.toNat ≤ i then 0xFF else s.txf.byteAt (3 + i)) ∧
    t.txf.byteAt 131 = (crc16 (payloadOf t.txf)).extractLsb' 8 8 ∧
    t.txf.byteAt 132 = (crc16 (payloadOf t.txf)).extractLsb' 0 8 ∧
    (∀ x, 132 < x → t.txf.byteAt x = s.txf.byteAt x) ∧
    (s.txcnt.toNat ≤ 128 → frameBytes t.txf = buildChunk s.blk ((payloadOf s.txf).take s.txcnt.toNat)) ∧
    (s.txcnt = 0 → t.txf.byteAt 131 = 0xED ∧ t.txf.byteAt 132 = 0xA9)) ∧
  (∀ s t u : State, ∀ v : Byte, exec .txbuild s = .next t → exec .txbuild { t with blk := v } = .next u →
    payloadOf u.txf = payloadOf t.txf ∧ u.txf.byteAt 131 = t.txf.byteAt 131 ∧
    u.txf.byteAt 132 = t.txf.byteAt 132 ∧ u.txf.byteAt 1 = v) ∧
  IsFormatN 0x22 .txbuild

/-- R84: the chunk byte by byte; source bytes beyond 128 are not the chunk's. -/
def Obligations.BuildChunkLayout : Prop :=
  (∀ (block : Byte) (src : List Byte), src.length ≤ 128 →
    (buildChunk block src).length = 133 ∧
    (buildChunk block src)[0]? = some 0x01 ∧
    (buildChunk block src)[1]? = some block ∧
    (∃ c : Byte, (buildChunk block src)[2]? = some c ∧ c.toNat = 255 - block.toNat) ∧
    (∀ i, i < 128 → (buildChunk block src)[3 + i]? = some (src.getD i 0xFF)) ∧
    (∃ hi lo : Byte, (buildChunk block src)[131]? = some hi ∧ (buildChunk block src)[132]? = some lo ∧
      hi ++ lo = crc16 (((buildChunk block src).drop 3).take 128))) ∧
  (∀ (block : Byte) (src : List Byte), buildChunk block src = buildChunk block (src.take 128))

/-- R79: TXPOP. Without a built chunk it raises E_SEQ, at the end E_TXEMPTY, else it answers the byte at TXPOS and adds 1
to TXPOS, the buffer unchanged; TXDONE becomes 1 with the last byte. -/
def Obligations.TxpopAnswersTheNextByte : Prop :=
  (∀ s : State, s.txvalid = false → exec .txpop s = .next (raised 4 s)) ∧
  (∀ s : State, s.txvalid = true → s.txpos.toNat = 133 → exec .txpop s = .next (raised 6 s)) ∧
  (∀ s : State, s.txvalid = true → s.txpos.toNat < 133 →
    ∃ t, exec .txpop s = .next t ∧ t.txpos.toNat = s.txpos.toNat + 1 ∧
      t = { s with
        txpos := t.txpos
        port := .response { e := 0, d := (s.txf.byteAt s.txpos.toNat).setWidth 16 } } ∧
      (status t.toBlock).getLsbD 1 = decide (s.txpos.toNat = 132)) ∧
  (∀ s : State, s.txvalid = true → s.txpos = 0 →
    ∃ t, answers (List.replicate 133 .txpop) s = some ((frameBytes s.txf).map (BitVec.setWidth 16), t) ∧
      exec .txpop t = .next (raised 6 t)) ∧
  IsFormatN 0x23 .txpop

/-- R80: TXREW sets TXPOS to 0 in every state and touches nothing else; the 133 TXPOPs after it answer the bytes of the
frame, whatever was popped before, and leave the chunk as it was. -/
def Obligations.TxrewSendsTheSameBytesAgain : Prop :=
  (∀ s : State, exec .txrew s = .next (answered { s with txpos := 0 })) ∧
  (∀ s t : State, exec .txrew s = .next t → (status t.toBlock).getLsbD 1 = false) ∧
  (∀ s : State, s.txvalid = true →
    ∃ t, answers (.txrew :: List.replicate 133 .txpop) s =
        some (0x0000 :: (frameBytes s.txf).map (BitVec.setWidth 16), t) ∧
      t.toBlock = { s.toBlock with txpos := 133 }) ∧
  IsFormatN 0x24 .txrew

/-- R81, R82, R83: the block number operations, modulo 256; `n` BLKNEXTs add `n`. The buffers are not touched. -/
def Obligations.BlockNumberOperations : Prop :=
  (∀ (s : State) (v : Byte), exec (.blkset v) s = .next (answered { s with blk := v })) ∧
  (∀ s : State, ∃ t, exec .blknext s = .next t ∧ t = answered { s with blk := t.blk } ∧
    t.blk.toNat = (s.blk.toNat + 1) % 256) ∧
  (∀ s : State, exec .blkrst s = .next (answered { s with blk := 0x01 })) ∧
  (∀ (n : Nat) (s : State), ∃ t, execAll (List.replicate n .blknext) s = .next t ∧
    t.toBlock = { s.toBlock with blk := t.blk } ∧ t.blk.toNat = (s.blk.toNat + n) % 256) ∧
  IsFormatB 0x25 .blkset ∧ IsFormatN 0x26 .blknext ∧ IsFormatN 0x27 .blkrst

/-- R17, R86: while a chunk is built only TXBUILD and SRST write the buffer, and only TXCLR and SRST end it. -/
def Obligations.BuiltChunkIsFrozen : Prop :=
  ∀ (i : Instr) (s t : State), exec i s = .next t → s.txvalid = true →
    (i ≠ .txbuild → i ≠ .srst → t.txf = s.txf ∧ (i ≠ .txclr → t.txcnt = s.txcnt)) ∧
    (i ≠ .txclr → i ≠ .srst → t.txvalid = true)

/-- R61, R75, R84: TXCLR, one TXDATA per byte and TXBUILD complete from every state and leave `build_chunk` of BLK and
the bytes in the buffer, ready to be popped; nothing outside the encoder changes. -/
def Obligations.TxloadBuildsTheChunk : Prop :=
  ∀ (data : List Byte) (s : State), data.length ≤ 128 →
    ∃ t, execAll (.txclr :: data.map .txdata ++ [.txbuild]) s = .next t ∧
      frameBytes t.txf = buildChunk s.blk data ∧
      t.txcnt.toNat = data.length ∧
      t = answered { s with txf := t.txf, txcnt := t.txcnt, txpos := 0, txvalid := true }

/-- R87, R118: a byte sequence sent from any state in pieces of 128 bytes, every chunk acknowledged at once (log 16, the
model's way of writing the host's procedure). The pieces are the sequence, as many as `ceil(L/128)`, all full but
possibly the last; when piece `k` (from 0) is built its chunk carries block number `(k + 1) mod 256`. -/
def Obligations.TransferBuildsOneChunkPerPiece : Prop :=
  ∀ data : List Byte,
    (pieces data).flatten = data ∧
    (pieces data).length = (data.length + 127) / 128 ∧
    (∀ (k : Nat) (p : List Byte), (pieces data)[k]? = some p →
      1 ≤ p.length ∧ p.length ≤ 128 ∧ (k + 1 < (pieces data).length → p.length = 128) ∧
      ∀ s : State, ∃ t,
        execAll ((.blkrst :: ((pieces data).take k).flatMap fun q => txload q ++ txsend ++ [.blknext]) ++ txload p) s =
          .next t ∧
        frameBytes t.txf = buildChunk (BitVec.ofNat 8 (k + 1)) p ∧ t.txcnt.toNat = p.length) ∧
    (∀ s : State, ∃ t, execAll (sendBytes data) s = .next t ∧ t.blk.toNat = ((pieces data).length + 1) % 256)

/-! ### The frame decoder -/

/-- R92: RXBYTE. A complete chunk refuses it (E_RXFULL), else the byte, whatever it is, goes to offset RXPOS and RXPOS
counts it; RXDONE becomes 1 with the last byte. -/
def Obligations.RxbyteStoresTheByte : Prop :=
  (∀ (s : State) (d : Byte), s.rxpos.toNat = 133 → exec (.rxbyte d) s = .next (raised 7 s)) ∧
  (∀ (s : State) (d : Byte), s.rxpos.toNat < 133 →
    ∃ t, exec (.rxbyte d) s = .next t ∧
      t = answered { s with rxf := t.rxf, rxpos := t.rxpos } ∧
      t.rxpos.toNat = s.rxpos.toNat + 1 ∧
      t.rxf.byteAt s.rxpos.toNat = d ∧
      (∀ x, x ≠ s.rxpos.toNat → t.rxf.byteAt x = s.rxf.byteAt x) ∧
      (status t.toBlock).getLsbD 2 = decide (s.rxpos.toNat = 132)) ∧
  IsFormatB 0x31 .rxbyte

/-- R93: RXPAY. E_RANGE above 127 whatever the state, E_SEQ before the chunk is complete, else the payload byte,
whatever the verdict; no state changes. -/
def Obligations.RxpayReadsThePayload : Prop :=
  (∀ (s : State) (i : Byte), exec (.rxpay i) s =
    if 127 < i.toNat then .next (raised 3 s)
    else if s.rxpos.toNat ≠ 133 then .next (raised 4 s)
    else .next { s with port := .response { e := 0, d := (s.rxf.byteAt (3 + i.toNat)).setWidth 16 } }) ∧
  (∀ (s : State) (arg : Byte), step (present (0x32#8 ++ arg) s) = exec (.rxpay arg) s)

/-- R94: the verdict flags, in their equivalent forms; each of the eight combinations of the three checks occurs; before
the chunk is complete all are 0. -/
def Obligations.VerdictFlags : Prop :=
  (∀ s : Block,
    rxDone s = decide (s.rxpos.toNat = 133) ∧
    sohOk s = (rxDone s && decide (s.rxf.byteAt 0 = 0x01)) ∧
    cmpOk s = (rxDone s && decide ((s.rxf.byteAt 1).toNat + (s.rxf.byteAt 2).toNat = 255)) ∧
    cmpOk s = (rxDone s && decide (s.rxf.byteAt 1 ^^^ s.rxf.byteAt 2 = 0xFF)) ∧
    cmpOk s = (rxDone s && decide (s.rxf.byteAt 2 = ~~~(s.rxf.byteAt 1))) ∧
    crcOk s = (rxDone s && decide (crc16 (payloadOf s.rxf) = s.rxf.byteAt 131 ++ s.rxf.byteAt 132)) ∧
    rxOk s = (sohOk s && cmpOk s && crcOk s) ∧
    (status s).extractLsb' 2 5 = BitVec.ofBool (rxOk s) ++ BitVec.ofBool (crcOk s) ++ BitVec.ofBool (cmpOk s) ++
      BitVec.ofBool (sohOk s) ++ BitVec.ofBool (rxDone s)) ∧
  (∀ s : Block, s.rxpos.toNat < 133 → (status s).extractLsb' 2 5 = 0) ∧
  (∀ a b c : Bool, ∃ s : State, s.Legal ∧ rxDone s.toBlock = true ∧ sohOk s.toBlock = a ∧ cmpOk s.toBlock = b ∧
    crcOk s.toBlock = c)

/-- R20, R32, R61: RXCLR and 133 RXBYTEs complete from every state and put the bytes in the buffer in order, nothing
else of the block changing. -/
def Obligations.RxframeReceivesTheBytes : Prop :=
  ∀ (bytes : List Byte) (s : State), bytes.length = 133 →
    ∃ t, execAll (.rxclr :: bytes.map .rxbyte) s = .next t ∧
      frameBytes t.rxf = bytes ∧ t = answered { s with rxf := t.rxf, rxpos := 133 }

/-- R96: a chunk built by the encoder and received unchanged passes every check, and the decoder's views and RXPAY give
back its block number and padded payload. -/
def Obligations.EncodedChunkIsAccepted : Prop :=
  ∀ (block : Byte) (data : List Byte) (s : State), data.length ≤ 128 →
    ∃ t, execAll (.rxclr :: (buildChunk block data).map .rxbyte) s = .next t ∧
      rxOk t.toBlock = true ∧ sohOk t.toBlock = true ∧ cmpOk t.toBlock = true ∧ crcOk t.toBlock = true ∧
      registerView t 6 = block.setWidth 16 ∧
      (registerView t 7).toNat = 255 - block.toNat ∧
      registerView t 8 = crc16 (payloadOf t.rxf) ∧
      ∀ i : Byte, i.toNat ≤ 127 → exec (.rxpay i) t =
        .next { t with port := .response { e := 0, d := (data.getD i.toNat 0xFF).setWidth 16 } }

/-- R97: in a received chunk that passes the checks, one changed bit of the payload or trailer clears CRCOK, one of byte 1
or 2 clears CMPOK (the same bit of both does not), any other start byte clears SOHOK; the header is not covered by the
CRC. -/
def Obligations.DamageIsDetected : Prop :=
  ∀ s : Block, rxOk s = true →
    (∀ x k, 3 ≤ x → x ≤ 132 → k < 8 →
      crcOk { s with rxf := flipBit s.rxf x k } = false ∧ rxOk { s with rxf := flipBit s.rxf x k } = false ∧
      sohOk { s with rxf := flipBit s.rxf x k } = true ∧ cmpOk { s with rxf := flipBit s.rxf x k } = true) ∧
    (∀ x k, x = 1 ∨ x = 2 → k < 8 →
      cmpOk { s with rxf := flipBit s.rxf x k } = false ∧ crcOk { s with rxf := flipBit s.rxf x k } = true) ∧
    (∀ k, k < 8 → cmpOk { s with rxf := flipBit (flipBit s.rxf 1 k) 2 k } = true ∧
      rxBlk { s with rxf := flipBit (flipBit s.rxf 1 k) 2 k } ≠ rxBlk s) ∧
    (∀ v : Byte, v ≠ 0x01 →
      sohOk { s with rxf := s.rxf.write 0 v } = false ∧ crcOk { s with rxf := s.rxf.write 0 v } = true)

/-! ### The whole machine -/

/-- R10, the column "written by": an operation other than SRST writes only the state the table gives it; the error record
changes only by ERRCLR or when an error is answered. -/
def Obligations.OnlyTheListedWriters : Prop :=
  ∀ (i : Instr) (s t : State), exec i s = .next t → i ≠ .srst →
    (group i ≠ 1 → t.crc = s.crc) ∧
    ((∀ v, i ≠ .blkset v) → i ≠ .blknext → i ≠ .blkrst → t.blk = s.blk) ∧
    (i ≠ .txclr → (∀ d, i ≠ .txdata d) → t.txcnt = s.txcnt) ∧
    (i ≠ .txclr → i ≠ .txbuild → i ≠ .txpop → i ≠ .txrew → t.txpos = s.txpos) ∧
    (i ≠ .txclr → i ≠ .txbuild → t.txvalid = s.txvalid) ∧
    ((∀ d, i ≠ .txdata d) → i ≠ .txbuild → t.txf = s.txf ∧ ∀ x, t.txf.byteAt x = s.txf.byteAt x) ∧
    (i ≠ .rxclr → (∀ d, i ≠ .rxbyte d) → t.rxpos = s.rxpos) ∧
    ((∀ d, i ≠ .rxbyte d) → t.rxf = s.rxf ∧ ∀ x, t.rxf.byteAt x = s.rxf.byteAt x) ∧
    (i ≠ .errclr → Succeeded t → t.err = s.err ∧ t.ecode = s.ecode)

/-- R44, R136: two successful operations of different groups among CRC generator, encoder and decoder give the same
block in either order, and each the response it gives alone. -/
def Obligations.GroupsDoNotDisturbOneAnother : Prop :=
  ∀ (i j : Instr) (s u v : State), group i ≠ 0 → group j ≠ 0 → group i ≠ group j →
    exec i s = .next u → Succeeded u → exec j s = .next v → Succeeded v →
    ∃ t t', exec j u = .next t ∧ exec i v = .next t' ∧ t.toBlock = t'.toBlock ∧ t.port = v.port ∧ t'.port = u.port

/-- R30 and log 6 (the model's choice, in states no run reaches, where a counter is above its legal range): an access
above offset 132 faults, and TXDATA with TXCNT 129, whose offset is 132, still completes. -/
def Obligations.AccessBeyondTheFrameFaults : Prop :=
  (∀ (s : State) (d : Byte), s.txvalid = false → s.txcnt.toNat = 129 →
    ∃ t, exec (.txdata d) s = .next t ∧ t = answered { s with txf := t.txf, txcnt := 130 } ∧
      t.txf.byteAt 132 = d ∧ ∀ x, x ≠ 132 → t.txf.byteAt x = s.txf.byteAt x) ∧
  (∀ (s : State) (d : Byte), s.txvalid = false → 130 ≤ s.txcnt.toNat → exec (.txdata d) s = .fault .txfOffset) ∧
  (∀ s : State, s.txvalid = true → 133 < s.txpos.toNat → exec .txpop s = .fault .txfOffset) ∧
  (∀ (s : State) (d : Byte), 133 < s.rxpos.toNat → exec (.rxbyte d) s = .fault .rxfOffset)

/-- R24: the invariants hold at reset. -/
def Obligations.ResetStateIsLegal : Prop := State.reset.Legal

/-- R24: every step keeps the invariants, the built chunk's among them, from every state that has them. -/
def Obligations.LegalStateIsKept : Prop :=
  ∀ s t : State, s.Legal → step s = .next t → t.Legal

/-- R51, R107, R133: from a state within the invariants every step, whatever the host's input, gives a next state. -/
def Obligations.LegalStateNeverStops : Prop :=
  ∀ s : State, s.Legal → ∃ t, step s = .next t

/-- The model's canonical form of the frame buffers (log 7) is kept by every step, from every state that has it. -/
def Obligations.BuffersStayCanonical : Prop :=
  ∀ s t : State, s.txf.wf = true → s.rxf.wf = true → step s = .next t → t.txf.wf = true ∧ t.rxf.wf = true

/-- R26 (b), (e), with the port as logs 1 and 2 have it: what is on the port is no state of the block. Whatever is there, an
operation gives the same outcome; `exec` and `step` are the functions `operation` and `command` of the block alone,
carried over to the interface; nothing is on the port after a command but its response. -/
def Obligations.PortIsNoStateOfTheBlock : Prop :=
  (∀ (i : Instr) (s : State) (p : Port), exec i { s with port := p } = exec i s) ∧
  (∀ (i : Instr) (s : State), exec i s = s.operate (operation i)) ∧
  (∀ (w : Word) (s : State), step (present w s) = s.operate (command w)) ∧
  (∀ (op : Block → Reply) (s t : State), s.operate op = .next t ↔
    ∃ r, op s.toBlock = .next (t.toBlock, r) ∧ t.port = .response r)

/-- Derived from R26 (b), (e), R41 and R55: a command stream is an argument and the responses a result. From a block with
its counters in range every stream gets one response for each word, in order; the response to word `k` is what that word
gives on the block that the words before it leave. -/
def Obligations.CommandStreamIsAnsweredInOrder : Prop :=
  ∀ (ws : List Word) (s : State), InRange s →
    ∃ b rs, commands ws s.toBlock = .next (b, rs) ∧ rs.length = ws.length ∧
      ∀ k w r, ws[k]? = some w → rs[k]? = some r →
        ∃ before after, commands (ws.take k) s.toBlock = .next (before, rs.take k) ∧
          command w before = .next (after, r)
end

