-- ==== Sys2Proof/Laws/Crc.lean ====
section
/-!
SUPPORT. The update functions of the CRC-16 generator are linear in register and data together (spec/40_crc.md R63), and
the flush is two zero bytes (R73).
-/

namespace Sys2Proof.Machine

/-- Shift-in of the incoming bit, before the conditional XOR, is linear. -/
theorem shiftIn_xor (a b : Word) (x y : Bit) :
    ((a ^^^ b) <<< 1) ||| (x ^^^ y).setWidth 16 =
      ((a <<< 1) ||| x.setWidth 16) ^^^ ((b <<< 1) ||| y.setWidth 16) := by
  apply BitVec.eq_of_getLsbD_eq
  intro i hi
  simp only [BitVec.getLsbD_or, BitVec.getLsbD_xor, BitVec.getLsbD_shiftLeft, BitVec.getLsbD_setWidth]
  rcases i with _ | i
  · simp
  · simp [hi]

/-- One update is linear: the XOR of two runs is the run of the XOR. -/
theorem crcUpdate_xor (a b : Word) (x y : Bit) :
    crcUpdate (a ^^^ b) (x ^^^ y) = crcUpdate a x ^^^ crcUpdate b y := by
  unfold crcUpdate
  simp only [shiftIn_xor, BitVec.getLsbD_xor]
  generalize (a <<< 1) ||| x.setWidth 16 = u
  generalize (b <<< 1) ||| y.setWidth 16 = v
  have swap : ∀ p q r : Word, p ^^^ q ^^^ r = p ^^^ r ^^^ q := fun p q r => by
    rw [BitVec.xor_assoc, BitVec.xor_comm q, BitVec.xor_assoc]
  cases a.getLsbD 15 <;> cases b.getLsbD 15
  · rfl
  · exact BitVec.xor_assoc ..
  · exact swap ..
  · show u ^^^ v = (u ^^^ Config.poly) ^^^ (v ^^^ Config.poly)
    rw [BitVec.xor_comm v, ← BitVec.xor_assoc, BitVec.xor_assoc u, BitVec.xor_self, BitVec.xor_zero]

/-- Feeding a byte is linear. -/
theorem crcByte_xor (a b : Word) (d e : Byte) : crcByte (a ^^^ b) (d ^^^ e) = crcByte a d ^^^ crcByte b e := by
  simp only [crcByte, bitsOf, List.map_cons, List.map_nil, List.foldl_cons, List.foldl_nil, BitVec.extractLsb'_xor,
    crcUpdate_xor]

/-- The flush feeds two zero bytes. -/
theorem crcFlush_eq (c : Word) : crcFlush c = crcByte (crcByte c 0x00) 0x00 := rfl

/-- Feeding a repeated byte in two parts. -/
theorem foldl_crcByte_replicate (m n : Nat) (d : Byte) (c : Word) :
    (List.replicate (m + n) d).foldl crcByte c =
      (List.replicate n d).foldl crcByte ((List.replicate m d).foldl crcByte c) := by
  rw [List.replicate_add, List.foldl_append]

/-- The two bytes of a CRC, high byte first, are the CRC (R33). -/
theorem bigEndian_highByte_lowByte (w : Word) : bigEndian (highByte w) (lowByte w) = w := by
  unfold bigEndian highByte lowByte
  rw [BitVec.extractLsb'_append_extractLsb'_eq_extractLsb'] <;> simp

end Sys2Proof.Machine
end

