-- ==== Sys2Proof/Laws/Decode.lean ====
section
/-!
SUPPORT. The two fields of a command word: taking them from a word put together gives them back, and putting them together
gives the word back.
-/

namespace Sys2Proof

@[simp] theorem opcOf_wordOf (opc arg : Byte) : opcOf (wordOf opc arg) = opc := by
  unfold opcOf wordOf
  apply BitVec.eq_of_toNat_eq
  simp only [BitVec.extractLsb'_toNat, BitVec.toNat_append, Nat.shiftLeft_eq, Nat.shiftRight_eq_div_pow]
  have ho := opc.isLt
  have ha := arg.isLt
  rw [Nat.mul_comm, ← Nat.two_pow_add_eq_or_of_lt ha]
  omega

@[simp] theorem argOf_wordOf (opc arg : Byte) : argOf (wordOf opc arg) = arg := by
  unfold argOf wordOf
  apply BitVec.eq_of_toNat_eq
  simp only [BitVec.extractLsb'_toNat, BitVec.toNat_append, Nat.shiftLeft_eq, Nat.shiftRight_eq_div_pow]
  have ho := opc.isLt
  have ha := arg.isLt
  rw [Nat.mul_comm, ← Nat.two_pow_add_eq_or_of_lt ha]
  omega

/-- A word put together from its fields decodes by them. -/
theorem decode_wordOf (opc arg : Byte) : decode (wordOf opc arg) = decodeFields opc arg := by
  rw [decode, opcOf_wordOf, argOf_wordOf]

@[simp] theorem wordOf_fields (w : Word) : wordOf (opcOf w) (argOf w) = w := by
  unfold opcOf argOf wordOf
  apply BitVec.eq_of_toNat_eq
  simp only [BitVec.extractLsb'_toNat, BitVec.toNat_append, Nat.shiftLeft_eq, Nat.shiftRight_eq_div_pow]
  have hw := w.isLt
  rw [Nat.mul_comm, ← Nat.two_pow_add_eq_or_of_lt (by omega)]
  omega

end Sys2Proof
end

