-- ==== Sys2Proof/Laws/Memory.lean ====
section
/-!
SUPPORT. The frame buffers: read after write, every write keeps the canonical form, and canonical buffers that read
alike are equal.
-/

namespace Sys2Proof.Machine

@[simp] theorem Memory.byteAt_nil (x : Nat) : Memory.byteAt [] x = 0x00 := rfl

theorem Memory.byteAt_cons (a : Nat) (v : Byte) (rest : Memory) (x : Nat) :
    Memory.byteAt ((a, v) :: rest) x = if a = x then v else Memory.byteAt rest x := rfl

/-- Dropping the cells of one offset leaves every other offset as it was. -/
theorem Memory.byteAt_filter_ne (m : Memory) {x y : Nat} (h : y ≠ x) :
    Memory.byteAt (m.filter fun cell => !(cell.1 == x)) y = m.byteAt y := by
  induction m with
  | nil => rfl
  | cons cell rest ih =>
    obtain ⟨a, v⟩ := cell
    by_cases hax : a = x
    · subst hax
      simp [Memory.byteAt_cons, ih, Ne.symm h]
    · simp [Memory.byteAt_cons, ih, hax]

/-- An offset whose cells are dropped reads as unlisted. -/
theorem Memory.byteAt_filter_self (m : Memory) (x : Nat) :
    Memory.byteAt (m.filter fun cell => !(cell.1 == x)) x = 0x00 := by
  induction m with
  | nil => rfl
  | cons cell rest ih =>
    obtain ⟨a, v⟩ := cell
    by_cases hax : a = x
    · simp [ih, hax]
    · simp [Memory.byteAt_cons, ih, hax]

theorem Memory.byteAt_place_ne (m : Memory) {x y : Nat} (v : Byte) (h : y ≠ x) :
    Memory.byteAt (Memory.place m x v) y = m.byteAt y := by
  induction m with
  | nil => simp [Memory.place, Memory.byteAt_cons, Ne.symm h]
  | cons cell rest ih =>
    obtain ⟨a, w⟩ := cell
    by_cases hlt : x < a
    · simp [Memory.place, hlt, Memory.byteAt_cons, Ne.symm h]
    · simp [Memory.place, hlt, Memory.byteAt_cons, ih]

theorem Memory.byteAt_place_self (m : Memory) (x : Nat) (v : Byte) (h : ∀ cell ∈ m, cell.1 ≠ x) :
    Memory.byteAt (Memory.place m x v) x = v := by
  induction m with
  | nil => simp [Memory.place, Memory.byteAt_cons]
  | cons cell rest ih =>
    obtain ⟨a, w⟩ := cell
    have hax : a ≠ x := h (a, w) (by simp)
    have hrest : ∀ cell ∈ rest, cell.1 ≠ x := fun c hc => h c (by simp [hc])
    by_cases hlt : x < a
    · simp [Memory.place, hlt, Memory.byteAt_cons]
    · simp [Memory.place, hlt, Memory.byteAt_cons, hax, ih hrest]

/-- A byte written is the byte read back, in every buffer. -/
@[simp] theorem Memory.byteAt_write_self (m : Memory) (x : Nat) (v : Byte) : (m.write x v).byteAt x = v := by
  unfold Memory.write
  by_cases hv : v = Memory.unlisted
  · rw [if_pos hv, Memory.byteAt_filter_self]; exact hv.symm
  · rw [if_neg hv]
    exact Memory.byteAt_place_self _ _ _ (by simp)

/-- A write leaves every other offset as it was, in every buffer. -/
theorem Memory.byteAt_write_ne (m : Memory) {x y : Nat} (v : Byte) (h : y ≠ x) :
    (m.write x v).byteAt y = m.byteAt y := by
  unfold Memory.write
  by_cases hv : v = Memory.unlisted
  · rw [if_pos hv, Memory.byteAt_filter_ne m h]
  · rw [if_neg hv, Memory.byteAt_place_ne _ v h, Memory.byteAt_filter_ne m h]

theorem Memory.byteAt_write (m : Memory) (x y : Nat) (v : Byte) :
    (m.write x v).byteAt y = if y = x then v else m.byteAt y := by
  by_cases h : y = x
  · subst h; simp
  · simp [h, Memory.byteAt_write_ne m v h]

theorem Memory.wfFrom_cons (low a : Nat) (v : Byte) (rest : Memory) :
    Memory.wfFrom low ((a, v) :: rest) = true ↔
      low ≤ a ∧ a < 133 ∧ v ≠ 0x00 ∧ Memory.wfFrom (a + 1) rest = true := by
  simp only [Memory.wfFrom, Bool.and_eq_true, decide_eq_true_eq, and_assoc]
  rfl

/-- A canonical form from some offset on is one from any lower offset on. -/
theorem Memory.wfFrom_mono {low low' : Nat} (h : low' ≤ low) (m : Memory) (hm : Memory.wfFrom low m = true) :
    Memory.wfFrom low' m = true := by
  cases m with
  | nil => rfl
  | cons cell rest =>
    obtain ⟨a, v⟩ := cell
    rw [Memory.wfFrom_cons] at hm ⊢
    exact ⟨by omega, hm.2⟩

theorem Memory.wfFrom_filter (m : Memory) (x low : Nat) (hm : Memory.wfFrom low m = true) :
    Memory.wfFrom low (m.filter fun cell => !(cell.1 == x)) = true := by
  induction m generalizing low with
  | nil => rfl
  | cons cell rest ih =>
    obtain ⟨a, v⟩ := cell
    rw [Memory.wfFrom_cons] at hm
    obtain ⟨hlow, ha, hv, hrest⟩ := hm
    by_cases hax : a = x
    · simpa [hax] using Memory.wfFrom_mono (by omega) _ (ih _ hrest)
    · rw [List.filter_cons_of_pos (by simp [hax]), Memory.wfFrom_cons]
      exact ⟨hlow, ha, hv, ih _ hrest⟩

theorem Memory.wfFrom_place (m : Memory) (x low : Nat) (v : Byte) (hm : Memory.wfFrom low m = true)
    (hx : x < 133) (hlow : low ≤ x) (hv : v ≠ 0x00) (hfree : ∀ cell ∈ m, cell.1 ≠ x) :
    Memory.wfFrom low (Memory.place m x v) = true := by
  induction m generalizing low with
  | nil => exact (Memory.wfFrom_cons ..).2 ⟨hlow, hx, hv, rfl⟩
  | cons cell rest ih =>
    obtain ⟨a, w⟩ := cell
    have hax : a ≠ x := hfree (a, w) (by simp)
    rw [Memory.wfFrom_cons] at hm
    obtain ⟨hla, ha, hw, hrest⟩ := hm
    by_cases hlt : x < a
    · simp only [Memory.place, hlt, if_true, Memory.wfFrom_cons]
      exact ⟨hlow, hx, hv, by omega, ha, hw, hrest⟩
    · simp only [Memory.place, hlt, if_false, Memory.wfFrom_cons]
      exact ⟨hla, ha, hw, ih _ hrest (by omega) fun c hc => hfree c (by simp [hc])⟩

/-- Every write inside the frame keeps the canonical form. -/
theorem Memory.wf_write (m : Memory) (x : Nat) (v : Byte) (hm : m.wf = true) (hx : x < 133) :
    (m.write x v).wf = true := by
  unfold Memory.write
  have hf := Memory.wfFrom_filter m x 0 hm
  by_cases hv : v = Memory.unlisted
  · rw [if_pos hv]; exact hf
  · rw [if_neg hv]
    exact Memory.wfFrom_place _ x 0 v hf hx (Nat.zero_le _) hv (by simp)

/-- The buffer of reset is canonical. -/
theorem Memory.wf_nil : Memory.wf [] = true := rfl

/-- Below its first offset a canonical list reads as unlisted. -/
theorem Memory.byteAt_below (m : Memory) (low x : Nat) (hm : Memory.wfFrom low m = true) (hx : x < low) :
    m.byteAt x = 0x00 := by
  induction m generalizing low with
  | nil => rfl
  | cons cell rest ih =>
    obtain ⟨a, v⟩ := cell
    rw [Memory.wfFrom_cons] at hm
    rw [Memory.byteAt_cons, if_neg (by omega)]
    exact ih (a + 1) hm.2.2.2 (by omega)

theorem Memory.eq_of_wfFrom (m m' : Memory) (low : Nat) (hm : Memory.wfFrom low m = true)
    (hm' : Memory.wfFrom low m' = true) (h : ∀ x, m.byteAt x = m'.byteAt x) : m = m' := by
  induction m generalizing m' low with
  | nil =>
    cases m' with
    | nil => rfl
    | cons cell rest =>
      obtain ⟨a, v⟩ := cell
      rw [Memory.wfFrom_cons] at hm'
      have := h a
      simp [Memory.byteAt_cons] at this
      exact absurd this.symm hm'.2.2.1
  | cons cell rest ih =>
    obtain ⟨a, v⟩ := cell
    rw [Memory.wfFrom_cons] at hm
    cases m' with
    | nil =>
      have := h a
      simp [Memory.byteAt_cons] at this
      exact absurd this hm.2.2.1
    | cons cell' rest' =>
      obtain ⟨a', v'⟩ := cell'
      rw [Memory.wfFrom_cons] at hm'
      have haa : a = a' := by
        rcases Nat.lt_trichotomy a a' with hlt | heq | hgt
        · have := h a
          rw [Memory.byteAt_cons, if_pos rfl, Memory.byteAt_cons, if_neg (by omega),
            Memory.byteAt_below rest' (a' + 1) a hm'.2.2.2 (by omega)] at this
          exact absurd this hm.2.2.1
        · exact heq
        · have := h a'
          rw [Memory.byteAt_cons, if_neg (by omega), Memory.byteAt_below rest (a + 1) a' hm.2.2.2 (by omega),
            Memory.byteAt_cons, if_pos rfl] at this
          exact absurd this.symm hm'.2.2.1
      subst haa
      have hvv : v = v' := by simpa [Memory.byteAt_cons] using h a
      subst hvv
      have htail : rest = rest' := by
        refine ih rest' (a + 1) hm.2.2.2 hm'.2.2.2 fun x => ?_
        by_cases hax : a = x
        · subst hax
          rw [Memory.byteAt_below rest (a + 1) a hm.2.2.2 (by omega),
            Memory.byteAt_below rest' (a + 1) a hm'.2.2.2 (by omega)]
        · simpa [Memory.byteAt_cons, hax] using h x
      rw [htail]

/-- Canonical buffers that read alike at every offset are equal. -/
theorem Memory.ext_of_wf {m m' : Memory} (hm : m.wf = true) (hm' : m'.wf = true)
    (h : ∀ x, m.byteAt x = m'.byteAt x) : m = m' :=
  Memory.eq_of_wfFrom m m' 0 hm hm' h

theorem memRead_eq_some {m : Memory} {x : Nat} {v : Byte} :
    memRead m x = some v ↔ x < 133 ∧ m.byteAt x = v := by
  simp only [memRead, Option.ite_none_right_eq_some, Option.some.injEq]
  rfl

theorem memRead_of_lt (m : Memory) {x : Nat} (h : x < 133) : memRead m x = some (m.byteAt x) :=
  memRead_eq_some.2 ⟨h, rfl⟩

theorem memWrite_eq_some {m m' : Memory} {x : Nat} {v : Byte} :
    memWrite m x v = some m' ↔ x < 133 ∧ m.write x v = m' := by
  simp only [memWrite, Option.ite_none_right_eq_some, Option.some.injEq]
  rfl

theorem memWrite_of_lt (m : Memory) {x : Nat} (v : Byte) (h : x < 133) : memWrite m x v = some (m.write x v) :=
  memWrite_eq_some.2 ⟨h, rfl⟩

/-- A write that succeeds keeps the canonical form. -/
theorem memWrite_wf {m m' : Memory} {x : Nat} {v : Byte} (hm : m.wf = true) (h : memWrite m x v = some m') :
    m'.wf = true := by
  obtain ⟨hx, rfl⟩ := memWrite_eq_some.1 h
  exact Memory.wf_write m x v hm hx

theorem length_payloadOf (m : Memory) : (payloadOf m).length = 128 := by
  simp [payloadOf, Config.payloadLen]

theorem length_frameBytes (m : Memory) : (frameBytes m).length = 133 := by
  simp [frameBytes, Config.frameLen]

/-- Buffers that read alike on offsets 3 to 130 have the same payload. -/
theorem payloadOf_congr {m m' : Memory} (h : ∀ i, i < 128 → m.byteAt (3 + i) = m'.byteAt (3 + i)) :
    payloadOf m = payloadOf m' := by
  apply List.map_congr_left
  intro i hi
  exact h i (by simpa [Config.payloadLen] using hi)

end Sys2Proof.Machine
end

