-- ==== Sys2Proof/Laws/State.lean ====
section
/-!
SUPPORT. One lemma per field per write: the field written reads as what was written, every other field as before.
-/

namespace Sys2Proof.Machine

@[simp] theorem Block.setCrc_crc (b : Block) (v : Word) : (b.setCrc v).crc = v := rfl
@[simp] theorem Block.setCrc_blk (b : Block) (v : Word) : (b.setCrc v).blk = b.blk := rfl
@[simp] theorem Block.setCrc_txcnt (b : Block) (v : Word) : (b.setCrc v).txcnt = b.txcnt := rfl
@[simp] theorem Block.setCrc_txpos (b : Block) (v : Word) : (b.setCrc v).txpos = b.txpos := rfl
@[simp] theorem Block.setCrc_txvalid (b : Block) (v : Word) : (b.setCrc v).txvalid = b.txvalid := rfl
@[simp] theorem Block.setCrc_txf (b : Block) (v : Word) : (b.setCrc v).txf = b.txf := rfl
@[simp] theorem Block.setCrc_rxpos (b : Block) (v : Word) : (b.setCrc v).rxpos = b.rxpos := rfl
@[simp] theorem Block.setCrc_rxf (b : Block) (v : Word) : (b.setCrc v).rxf = b.rxf := rfl
@[simp] theorem Block.setCrc_err (b : Block) (v : Word) : (b.setCrc v).err = b.err := rfl
@[simp] theorem Block.setCrc_ecode (b : Block) (v : Word) : (b.setCrc v).ecode = b.ecode := rfl

@[simp] theorem Block.setBlk_crc (b : Block) (v : Byte) : (b.setBlk v).crc = b.crc := rfl
@[simp] theorem Block.setBlk_blk (b : Block) (v : Byte) : (b.setBlk v).blk = v := rfl
@[simp] theorem Block.setBlk_txcnt (b : Block) (v : Byte) : (b.setBlk v).txcnt = b.txcnt := rfl
@[simp] theorem Block.setBlk_txpos (b : Block) (v : Byte) : (b.setBlk v).txpos = b.txpos := rfl
@[simp] theorem Block.setBlk_txvalid (b : Block) (v : Byte) : (b.setBlk v).txvalid = b.txvalid := rfl
@[simp] theorem Block.setBlk_txf (b : Block) (v : Byte) : (b.setBlk v).txf = b.txf := rfl
@[simp] theorem Block.setBlk_rxpos (b : Block) (v : Byte) : (b.setBlk v).rxpos = b.rxpos := rfl
@[simp] theorem Block.setBlk_rxf (b : Block) (v : Byte) : (b.setBlk v).rxf = b.rxf := rfl
@[simp] theorem Block.setBlk_err (b : Block) (v : Byte) : (b.setBlk v).err = b.err := rfl
@[simp] theorem Block.setBlk_ecode (b : Block) (v : Byte) : (b.setBlk v).ecode = b.ecode := rfl

@[simp] theorem Block.setTxcnt_crc (b : Block) (v : Byte) : (b.setTxcnt v).crc = b.crc := rfl
@[simp] theorem Block.setTxcnt_blk (b : Block) (v : Byte) : (b.setTxcnt v).blk = b.blk := rfl
@[simp] theorem Block.setTxcnt_txcnt (b : Block) (v : Byte) : (b.setTxcnt v).txcnt = v := rfl
@[simp] theorem Block.setTxcnt_txpos (b : Block) (v : Byte) : (b.setTxcnt v).txpos = b.txpos := rfl
@[simp] theorem Block.setTxcnt_txvalid (b : Block) (v : Byte) : (b.setTxcnt v).txvalid = b.txvalid := rfl
@[simp] theorem Block.setTxcnt_txf (b : Block) (v : Byte) : (b.setTxcnt v).txf = b.txf := rfl
@[simp] theorem Block.setTxcnt_rxpos (b : Block) (v : Byte) : (b.setTxcnt v).rxpos = b.rxpos := rfl
@[simp] theorem Block.setTxcnt_rxf (b : Block) (v : Byte) : (b.setTxcnt v).rxf = b.rxf := rfl
@[simp] theorem Block.setTxcnt_err (b : Block) (v : Byte) : (b.setTxcnt v).err = b.err := rfl
@[simp] theorem Block.setTxcnt_ecode (b : Block) (v : Byte) : (b.setTxcnt v).ecode = b.ecode := rfl

@[simp] theorem Block.setTxpos_crc (b : Block) (v : Byte) : (b.setTxpos v).crc = b.crc := rfl
@[simp] theorem Block.setTxpos_blk (b : Block) (v : Byte) : (b.setTxpos v).blk = b.blk := rfl
@[simp] theorem Block.setTxpos_txcnt (b : Block) (v : Byte) : (b.setTxpos v).txcnt = b.txcnt := rfl
@[simp] theorem Block.setTxpos_txpos (b : Block) (v : Byte) : (b.setTxpos v).txpos = v := rfl
@[simp] theorem Block.setTxpos_txvalid (b : Block) (v : Byte) : (b.setTxpos v).txvalid = b.txvalid := rfl
@[simp] theorem Block.setTxpos_txf (b : Block) (v : Byte) : (b.setTxpos v).txf = b.txf := rfl
@[simp] theorem Block.setTxpos_rxpos (b : Block) (v : Byte) : (b.setTxpos v).rxpos = b.rxpos := rfl
@[simp] theorem Block.setTxpos_rxf (b : Block) (v : Byte) : (b.setTxpos v).rxf = b.rxf := rfl
@[simp] theorem Block.setTxpos_err (b : Block) (v : Byte) : (b.setTxpos v).err = b.err := rfl
@[simp] theorem Block.setTxpos_ecode (b : Block) (v : Byte) : (b.setTxpos v).ecode = b.ecode := rfl

@[simp] theorem Block.setTxvalid_crc (b : Block) (v : Bool) : (b.setTxvalid v).crc = b.crc := rfl
@[simp] theorem Block.setTxvalid_blk (b : Block) (v : Bool) : (b.setTxvalid v).blk = b.blk := rfl
@[simp] theorem Block.setTxvalid_txcnt (b : Block) (v : Bool) : (b.setTxvalid v).txcnt = b.txcnt := rfl
@[simp] theorem Block.setTxvalid_txpos (b : Block) (v : Bool) : (b.setTxvalid v).txpos = b.txpos := rfl
@[simp] theorem Block.setTxvalid_txvalid (b : Block) (v : Bool) : (b.setTxvalid v).txvalid = v := rfl
@[simp] theorem Block.setTxvalid_txf (b : Block) (v : Bool) : (b.setTxvalid v).txf = b.txf := rfl
@[simp] theorem Block.setTxvalid_rxpos (b : Block) (v : Bool) : (b.setTxvalid v).rxpos = b.rxpos := rfl
@[simp] theorem Block.setTxvalid_rxf (b : Block) (v : Bool) : (b.setTxvalid v).rxf = b.rxf := rfl
@[simp] theorem Block.setTxvalid_err (b : Block) (v : Bool) : (b.setTxvalid v).err = b.err := rfl
@[simp] theorem Block.setTxvalid_ecode (b : Block) (v : Bool) : (b.setTxvalid v).ecode = b.ecode := rfl

@[simp] theorem Block.setTxf_crc (b : Block) (v : Memory) : (b.setTxf v).crc = b.crc := rfl
@[simp] theorem Block.setTxf_blk (b : Block) (v : Memory) : (b.setTxf v).blk = b.blk := rfl
@[simp] theorem Block.setTxf_txcnt (b : Block) (v : Memory) : (b.setTxf v).txcnt = b.txcnt := rfl
@[simp] theorem Block.setTxf_txpos (b : Block) (v : Memory) : (b.setTxf v).txpos = b.txpos := rfl
@[simp] theorem Block.setTxf_txvalid (b : Block) (v : Memory) : (b.setTxf v).txvalid = b.txvalid := rfl
@[simp] theorem Block.setTxf_txf (b : Block) (v : Memory) : (b.setTxf v).txf = v := rfl
@[simp] theorem Block.setTxf_rxpos (b : Block) (v : Memory) : (b.setTxf v).rxpos = b.rxpos := rfl
@[simp] theorem Block.setTxf_rxf (b : Block) (v : Memory) : (b.setTxf v).rxf = b.rxf := rfl
@[simp] theorem Block.setTxf_err (b : Block) (v : Memory) : (b.setTxf v).err = b.err := rfl
@[simp] theorem Block.setTxf_ecode (b : Block) (v : Memory) : (b.setTxf v).ecode = b.ecode := rfl

@[simp] theorem Block.setRxpos_crc (b : Block) (v : Byte) : (b.setRxpos v).crc = b.crc := rfl
@[simp] theorem Block.setRxpos_blk (b : Block) (v : Byte) : (b.setRxpos v).blk = b.blk := rfl
@[simp] theorem Block.setRxpos_txcnt (b : Block) (v : Byte) : (b.setRxpos v).txcnt = b.txcnt := rfl
@[simp] theorem Block.setRxpos_txpos (b : Block) (v : Byte) : (b.setRxpos v).txpos = b.txpos := rfl
@[simp] theorem Block.setRxpos_txvalid (b : Block) (v : Byte) : (b.setRxpos v).txvalid = b.txvalid := rfl
@[simp] theorem Block.setRxpos_txf (b : Block) (v : Byte) : (b.setRxpos v).txf = b.txf := rfl
@[simp] theorem Block.setRxpos_rxpos (b : Block) (v : Byte) : (b.setRxpos v).rxpos = v := rfl
@[simp] theorem Block.setRxpos_rxf (b : Block) (v : Byte) : (b.setRxpos v).rxf = b.rxf := rfl
@[simp] theorem Block.setRxpos_err (b : Block) (v : Byte) : (b.setRxpos v).err = b.err := rfl
@[simp] theorem Block.setRxpos_ecode (b : Block) (v : Byte) : (b.setRxpos v).ecode = b.ecode := rfl

@[simp] theorem Block.setRxf_crc (b : Block) (v : Memory) : (b.setRxf v).crc = b.crc := rfl
@[simp] theorem Block.setRxf_blk (b : Block) (v : Memory) : (b.setRxf v).blk = b.blk := rfl
@[simp] theorem Block.setRxf_txcnt (b : Block) (v : Memory) : (b.setRxf v).txcnt = b.txcnt := rfl
@[simp] theorem Block.setRxf_txpos (b : Block) (v : Memory) : (b.setRxf v).txpos = b.txpos := rfl
@[simp] theorem Block.setRxf_txvalid (b : Block) (v : Memory) : (b.setRxf v).txvalid = b.txvalid := rfl
@[simp] theorem Block.setRxf_txf (b : Block) (v : Memory) : (b.setRxf v).txf = b.txf := rfl
@[simp] theorem Block.setRxf_rxpos (b : Block) (v : Memory) : (b.setRxf v).rxpos = b.rxpos := rfl
@[simp] theorem Block.setRxf_rxf (b : Block) (v : Memory) : (b.setRxf v).rxf = v := rfl
@[simp] theorem Block.setRxf_err (b : Block) (v : Memory) : (b.setRxf v).err = b.err := rfl
@[simp] theorem Block.setRxf_ecode (b : Block) (v : Memory) : (b.setRxf v).ecode = b.ecode := rfl

@[simp] theorem Block.setRecord_crc (b : Block) (e : Bool) (c : Code) : (b.setRecord e c).crc = b.crc := rfl
@[simp] theorem Block.setRecord_blk (b : Block) (e : Bool) (c : Code) : (b.setRecord e c).blk = b.blk := rfl
@[simp] theorem Block.setRecord_txcnt (b : Block) (e : Bool) (c : Code) : (b.setRecord e c).txcnt = b.txcnt := rfl
@[simp] theorem Block.setRecord_txpos (b : Block) (e : Bool) (c : Code) : (b.setRecord e c).txpos = b.txpos := rfl
@[simp] theorem Block.setRecord_txvalid (b : Block) (e : Bool) (c : Code) : (b.setRecord e c).txvalid = b.txvalid := rfl
@[simp] theorem Block.setRecord_txf (b : Block) (e : Bool) (c : Code) : (b.setRecord e c).txf = b.txf := rfl
@[simp] theorem Block.setRecord_rxpos (b : Block) (e : Bool) (c : Code) : (b.setRecord e c).rxpos = b.rxpos := rfl
@[simp] theorem Block.setRecord_rxf (b : Block) (e : Bool) (c : Code) : (b.setRecord e c).rxf = b.rxf := rfl
@[simp] theorem Block.setRecord_err (b : Block) (e : Bool) (c : Code) : (b.setRecord e c).err = e := rfl
@[simp] theorem Block.setRecord_ecode (b : Block) (e : Bool) (c : Code) : (b.setRecord e c).ecode = c := rfl

@[simp] theorem State.setPort_toBlock (s : State) (p : Port) : (s.setPort p).toBlock = s.toBlock := rfl
@[simp] theorem State.setPort_port (s : State) (p : Port) : (s.setPort p).port = p := rfl

@[simp] theorem State.response_of_response (b : Block) (r : Response) :
    State.response { toBlock := b, port := .response r } = some r := rfl
@[simp] theorem State.response_of_quiet (b : Block) : State.response { toBlock := b, port := .quiet } = none := rfl
@[simp] theorem State.response_of_command (b : Block) (w : Word) :
    State.response { toBlock := b, port := .command w } = none := rfl
@[simp] theorem State.response_of_reset (b : Block) : State.response { toBlock := b, port := .reset } = none := rfl

/-- Two states with the same block and the same port are equal. -/
theorem State.ext_block {s t : State} (hb : s.toBlock = t.toBlock) (hp : s.port = t.port) : s = t := by
  obtain ⟨b, p⟩ := s
  obtain ⟨b', p'⟩ := t
  obtain rfl : b = b' := hb
  obtain rfl : p = p' := hp
  rfl

end Sys2Proof.Machine
end

