-- ==== Sys2Proof/Laws/Ops.lean ====
section
/-!
SUPPORT. One lemma per shared operation, saying all it does: responses, error entry, the host's interface, the padder and the
frame builder of TXBUILD, and running a sequence.
-/

namespace Sys2Proof.Machine

/-- All that an operation carried over to the interface does: it gives the block's next state and its response, or stops as
the operation stops. What was on the port before is neither read nor kept. -/
theorem State.operate_eq (op : Block → Reply) (s : State) :
    s.operate op =
      match op s.toBlock with
      | .next (b, r) => .next { toBlock := b, port := .response r }
      | .fault x => .fault x
      | .refused x => .refused x := rfl

theorem operate_of_next {op : Block → Reply} {s : State} {b : Block} {r : Response}
    (h : op s.toBlock = .next (b, r)) : s.operate op = .next { toBlock := b, port := .response r } := by
  simp only [State.operate_eq, h]

theorem operate_of_fault {op : Block → Reply} {s : State} {x : Fault} (h : op s.toBlock = .fault x) :
    s.operate op = .fault x := by
  simp only [State.operate_eq, h]

/-- A next state at the interface comes from a next state of the block. -/
theorem operate_eq_next {op : Block → Reply} {s t : State} (h : s.operate op = .next t) :
    ∃ b r, op s.toBlock = .next (b, r) ∧ t = { toBlock := b, port := .response r } := by
  rw [State.operate_eq] at h
  cases hop : op s.toBlock with
  | next br =>
    rw [hop] at h
    exact ⟨br.1, br.2, rfl, by injection h with h; exact h.symm⟩
  | fault x => rw [hop] at h; cases h
  | refused x => rw [hop] at h; cases h

/-- Error entry always gives a next state: the record is set unless it holds an error already. -/
theorem raise_eq (x : ErrName) (b : Block) :
    raise x b = .next
      ({ b with err := true, ecode := if b.err then b.ecode else errCode x }, { e := errCode x, d := 0x0000 }) := by
  obtain ⟨crc, blk, txcnt, txpos, txvalid, txf, rxpos, rxf, err, ecode⟩ := b
  cases err <;> rfl

/-- Error entry at the interface. -/
theorem operate_raise (x : ErrName) (s : State) :
    s.operate (raise x) = .next { s with
      err := true, ecode := if s.err then s.ecode else errCode x,
      port := .response { e := errCode x, d := 0x0000 } } :=
  operate_of_next (raise_eq x s.toBlock)

/-- No error has the code of success. -/
theorem errCode_ne_zero (x : ErrName) : errCode x ≠ 0#4 := by
  cases x <;> decide

/-- The seven codes are 1 to 7. -/
theorem errCode_le (x : ErrName) : (errCode x).toNat ≤ 7 := by
  cases x <;> decide

/-- The response read from the port. -/
theorem response_eq_some {s : State} {r : Response} : s.response = some r ↔ s.port = .response r := by
  unfold State.response
  cases s.port <;> simp

/-- A command stream whose first word gives a next state goes on from it. -/
theorem commands_cons {w : Word} {later : List Word} {b b' b'' : Block} {r : Response} {rs : List Response}
    (h : command w b = .next (b', r)) (hl : commands later b' = .next (b'', rs)) :
    commands (w :: later) b = .next (b'', r :: rs) := by
  simp only [commands, h, hl]

/-- Pad bytes lie at payload offsets from `cnt` on; every other offset reads as before. -/
theorem byteAt_padFold (n : Nat) (m : Memory) (cnt x : Nat) :
    Memory.byteAt ((List.range' cnt n).foldl (fun m i => m.write (payloadOffset i) Config.pad) m) x =
      if 3 + cnt ≤ x ∧ x < 3 + cnt + n then 0xFF else m.byteAt x := by
  induction n generalizing m cnt with
  | zero => rw [if_neg (by omega)]; rfl
  | succ n ih =>
    rw [List.range'_succ, List.foldl_cons, ih]
    by_cases hin : 3 + (cnt + 1) ≤ x ∧ x < 3 + (cnt + 1) + n
    · rw [if_pos hin, if_pos (by omega)]
    · rw [if_neg hin]
      by_cases hx : x = 3 + cnt
      · subst hx
        rw [if_pos (by omega)]
        exact Memory.byteAt_write_self ..
      · rw [if_neg (by omega)]
        exact Memory.byteAt_write_ne _ _ hx

theorem byteAt_padPayload (m : Memory) (cnt x : Nat) :
    (padPayload m cnt).byteAt x = if 3 + cnt ≤ x ∧ x ≤ 130 then 0xFF else m.byteAt x := by
  unfold padPayload
  rw [byteAt_padFold]
  have hlen : Config.payloadLen - cnt = 128 - cnt := rfl
  rw [hlen]
  by_cases hin : 3 + cnt ≤ x ∧ x ≤ 130
  · rw [if_pos hin, if_pos (by omega)]
  · rw [if_neg hin, if_neg (by omega)]

theorem wf_padFold (n : Nat) (m : Memory) (cnt : Nat) (hm : m.wf = true) (h : cnt + n ≤ 128) :
    Memory.wf ((List.range' cnt n).foldl (fun m i => m.write (payloadOffset i) Config.pad) m) = true := by
  induction n generalizing m cnt with
  | zero => exact hm
  | succ n ih =>
    rw [List.range'_succ, List.foldl_cons]
    exact ih _ _ (Memory.wf_write _ _ _ hm (by simp only [payloadOffset]; omega)) (by omega)

theorem wf_padPayload (m : Memory) (cnt : Nat) (hm : m.wf = true) : (padPayload m cnt).wf = true := by
  unfold padPayload
  by_cases h : cnt ≤ 128
  · exact wf_padFold _ m cnt hm (by simp only [Config.payloadLen]; omega)
  · have : Config.payloadLen - cnt = 0 := by simp only [Config.payloadLen]; omega
    rw [this]; exact hm

/-- Every byte of the frame TXBUILD leaves. -/
theorem byteAt_builtFrame (m : Memory) (cnt : Nat) (blk : Byte) (x : Nat) :
    (builtFrame m cnt blk).byteAt x =
      if x = 132 then lowByte (crc16 (payloadOf (padPayload m cnt)))
      else if x = 131 then highByte (crc16 (payloadOf (padPayload m cnt)))
      else if x = 2 then complement blk
      else if x = 1 then blk
      else if x = 0 then 0x01
      else (padPayload m cnt).byteAt x := by
  simp only [builtFrame, Memory.byteAt_write, Config.soh]

theorem wf_builtFrame (m : Memory) (cnt : Nat) (blk : Byte) (hm : m.wf = true) :
    (builtFrame m cnt blk).wf = true := by
  have hp := wf_padPayload m cnt hm
  unfold builtFrame
  exact Memory.wf_write _ _ _ (Memory.wf_write _ _ _ (Memory.wf_write _ _ _ (Memory.wf_write _ _ _
    (Memory.wf_write _ _ _ hp (by omega)) (by omega)) (by omega)) (by omega)) (by omega)

/-- The payload of the built frame is the padded payload. -/
theorem payloadOf_builtFrame (m : Memory) (cnt : Nat) (blk : Byte) :
    payloadOf (builtFrame m cnt blk) = payloadOf (padPayload m cnt) := by
  apply payloadOf_congr
  intro i hi
  rw [byteAt_builtFrame]
  split_ifs <;> first | omega | rfl

/-- A sequence that starts with a completing operation goes on from its next state. -/
theorem execAll_cons {i : Instr} {is : List Instr} {s t : State} (h : exec i s = .next t) :
    execAll (i :: is) s = execAll is t := by
  simp [execAll, h]

/-- Two sequences in a row run the second from where the first ends. -/
theorem execAll_append {is js : List Instr} {s t : State} (h : execAll is s = .next t) :
    execAll (is ++ js) s = execAll js t := by
  induction is generalizing s with
  | nil => simp only [execAll, Host.Outcome.next.injEq] at h; simp [h]
  | cons i is ih =>
    simp only [execAll, List.cons_append] at h ⊢
    cases hi : exec i s with
    | next u => rw [hi] at h; exact ih h
    | fault r => rw [hi] at h; simp at h
    | refused r => rw [hi] at h; simp at h

end Sys2Proof.Machine
end

