-- ==== Sys2Proof/Laws/Exec.lean ====
section
/-!
SUPPORT. What an operation can do, said once: when `exec` gives a next state, that state is one of the cases of
`Effect`. Proofs about all operations take `cases` on it instead of unfolding the meanings.
-/

namespace Sys2Proof.Machine

/-- The response of a success with no value. -/
def okResponse : Port := .response { e := 0, d := 0x0000 }

/-- Every next state an operation can give. -/
inductive Effect (s : State) : Instr → State → Prop where
  | raised (i : Instr) (x : ErrName) : Effect s i { s with
      err := true, ecode := if s.err then s.ecode else errCode x, port := .response { e := errCode x, d := 0x0000 } }
  | nop : Effect s .nop { s with port := okResponse }
  | rdreg (n : Byte) (v : Word) (h : reg s.toBlock n = some v) : Effect s (.rdreg n) { s with port := .response { e := 0, d := v } }
  | errclr : Effect s .errclr { s with err := false, ecode := 0, port := okResponse }
  | srst : Effect s .srst { s with toBlock := Block.reset, port := okResponse }
  | crcclr : Effect s .crcclr { s with crc := Config.crcInit, port := okResponse }
  | crcbit (b : Bit) : Effect s (.crcbit b) { s with crc := crcUpdate s.crc b, port := okResponse }
  | crcbyte (d : Byte) : Effect s (.crcbyte d) { s with crc := crcByte s.crc d, port := okResponse }
  | crcflush : Effect s .crcflush { s with crc := crcFlush s.crc, port := okResponse }
  | txclr : Effect s .txclr { s with txcnt := 0, txpos := 0, txvalid := false, port := okResponse }
  | txdata (d : Byte) (hv : s.txvalid = false) (hc : s.txcnt ≠ 128#8) (hx : txdataOffset s.toBlock < 133) :
      Effect s (.txdata d)
        { s with txf := s.txf.write (txdataOffset s.toBlock) d, txcnt := s.txcnt + 1, port := okResponse }
  | txbuild : Effect s .txbuild
      { s with txf := builtFrame s.txf s.txcnt.toNat s.blk, txvalid := true, txpos := 0, port := okResponse }
  | txpop (hv : s.txvalid = true) (hp : s.txpos ≠ 133#8) (hx : txpopOffset s.toBlock < 133) : Effect s .txpop
      { s with txpos := s.txpos + 1, port := .response { e := 0, d := zext16 (s.txf.byteAt (txpopOffset s.toBlock)) } }
  | txrew : Effect s .txrew { s with txpos := 0, port := okResponse }
  | blkset (v : Byte) : Effect s (.blkset v) { s with blk := v, port := okResponse }
  | blknext : Effect s .blknext { s with blk := s.blk + 1, port := okResponse }
  | blkrst : Effect s .blkrst { s with blk := Config.blkFirst, port := okResponse }
  | rxclr : Effect s .rxclr { s with rxpos := 0, port := okResponse }
  | rxbyte (d : Byte) (hp : s.rxpos ≠ 133#8) (hx : rxbyteOffset s.toBlock < 133) : Effect s (.rxbyte d)
      { s with rxf := s.rxf.write (rxbyteOffset s.toBlock) d, rxpos := s.rxpos + 1, port := okResponse }
  | rxpay (k : Byte) (hk : k.toNat ≤ 127) (hd : rxDone s.toBlock = true) : Effect s (.rxpay k)
      { s with port := .response { e := 0, d := zext16 (s.rxf.byteAt (payloadOffset k.toNat)) } }

theorem effect_of_raise {i : Instr} {x : ErrName} {s t : State} (h : s.operate (raise x) = .next t) :
    Effect s i t := by
  rw [operate_raise] at h
  cases h
  exact .raised i x

/-- TXBUILD in one equation. (Shown over an arbitrary frame, so that no check evaluates the builder.) -/
theorem opTxbuild_eq (b : Block) : opTxbuild b = .next
    ({ b with txf := builtFrame b.txf b.txcnt.toNat b.blk, txvalid := true, txpos := 0 }, { e := 0, d := 0x0000 }) := by
  have anyFrame : ∀ m : Memory, done (((b.setTxf m).setTxvalid true).setTxpos 0) =
      .next ({ b with txf := m, txvalid := true, txpos := 0 }, { e := 0, d := 0x0000 }) := fun _ => rfl
  exact anyFrame _

theorem execTxbuild_eq (s : State) : execTxbuild s = .next
    { s with txf := builtFrame s.txf s.txcnt.toNat s.blk, txvalid := true, txpos := 0, port := okResponse } :=
  operate_of_next (opTxbuild_eq s.toBlock)

/-- `exec` is the block's operation carried over to the interface. -/
theorem exec_eq_operate (i : Instr) (s : State) : exec i s = s.operate (operation i) := by
  cases i <;> rfl

/-- A step on a command word is the block's `command` carried over to the interface. -/
theorem step_eq_operate {w : Word} {s : State} (h : s.port = .command w) : step s = s.operate (command w) := by
  unfold step
  rw [h]
  cases hd : decode w with
  | ok i =>
    have hc : command w = operation i := funext fun b => by simp only [command, hd]
    simp only [hc, hd, exec_eq_operate]
  | error x =>
    have hc : command w = raise x := funext fun b => by simp only [command, hd]
    simp only [hc, hd]

/-- An operation that gives a next state has one of the effects. -/
theorem effect_of_exec {i : Instr} {s t : State} (h : exec i s = .next t) : Effect s i t := by
  cases i <;> simp only [exec] at h
  case nop => cases h; exact .nop
  case rdreg n =>
    obtain ⟨b, r, hop, rfl⟩ := operate_eq_next h
    unfold opRdreg at hop
    split at hop
    · next v hv => cases hop; exact .rdreg n v hv
    · exact effect_of_raise (operate_of_next hop)
  case errclr => cases h; exact .errclr
  case srst => cases h; exact .srst
  case crcclr => cases h; exact .crcclr
  case crcbit b => cases h; exact .crcbit b
  case crcbyte d => cases h; exact .crcbyte d
  case crcflush => cases h; exact .crcflush
  case txclr => cases h; exact .txclr
  case txdata d =>
    obtain ⟨b, r, hop, rfl⟩ := operate_eq_next h
    unfold opTxdata at hop
    split_ifs at hop with hv hc
    · exact effect_of_raise (operate_of_next hop)
    · exact effect_of_raise (operate_of_next hop)
    · split at hop
      · next m hm =>
        obtain ⟨hx, rfl⟩ := memWrite_eq_some.1 hm
        cases hop
        exact .txdata d (by simpa using hv) hc hx
      · cases hop
  case txbuild =>
    rw [execTxbuild_eq] at h
    injection h with h
    exact h ▸ .txbuild
  case txpop =>
    obtain ⟨b, r, hop, rfl⟩ := operate_eq_next h
    unfold opTxpop at hop
    split_ifs at hop with hv hp
    · exact effect_of_raise (operate_of_next hop)
    · exact effect_of_raise (operate_of_next hop)
    · split at hop
      · next v hm =>
        obtain ⟨hx, rfl⟩ := memRead_eq_some.1 hm
        cases hop
        exact .txpop (by simpa using hv) hp hx
      · cases hop
  case txrew => cases h; exact .txrew
  case blkset v => cases h; exact .blkset v
  case blknext => cases h; exact .blknext
  case blkrst => cases h; exact .blkrst
  case rxclr => cases h; exact .rxclr
  case rxbyte d =>
    obtain ⟨b, r, hop, rfl⟩ := operate_eq_next h
    unfold opRxbyte at hop
    split_ifs at hop with hp
    · exact effect_of_raise (operate_of_next hop)
    · split at hop
      · next m hm =>
        obtain ⟨hx, rfl⟩ := memWrite_eq_some.1 hm
        cases hop
        exact .rxbyte d hp hx
      · cases hop
  case rxpay k =>
    obtain ⟨b, r, hop, rfl⟩ := operate_eq_next h
    unfold opRxpay at hop
    split_ifs at hop with hk hd
    · exact effect_of_raise (operate_of_next hop)
    · exact effect_of_raise (operate_of_next hop)
    · split at hop
      · next v hm =>
        obtain ⟨-, rfl⟩ := memRead_eq_some.1 hm
        cases hop
        exact .rxpay k (by simp only [topPayloadIndex] at hk; omega) (by simpa using hd)
      · cases hop

/-- What a step can do (R41): wait, reset, run the operation a command word decodes to, or raise its decode error. -/
theorem step_cases {s t : State} (h : step s = .next t) :
    ((s.port = .quiet ∨ ∃ r, s.port = .response r) ∧ t = s.setPort .quiet) ∨
    (s.port = .reset ∧ t = { toBlock := Block.reset, port := .quiet }) ∨
    (∃ w i, s.port = .command w ∧ decode w = .ok i ∧ Effect s i t) ∨
    (∃ w x, s.port = .command w ∧ decode w = .error x ∧ s.operate (raise x) = .next t) := by
  unfold step at h
  split at h
  · next hp => cases h; exact .inl ⟨.inl hp, rfl⟩
  · next r hp => cases h; exact .inl ⟨.inr ⟨r, hp⟩, rfl⟩
  · next hp => cases h; exact .inr (.inl ⟨hp, rfl⟩)
  · next w hp =>
    split at h
    · next i hi => exact .inr (.inr (.inl ⟨w, i, hp, hi, effect_of_exec h⟩))
    · next x hx => exact .inr (.inr (.inr ⟨w, x, hp, hx, h⟩))

end Sys2Proof.Machine
end

