-- ==== Sys2Proof/Laws/Frame.lean ====
section
/-!
SUPPORT. The byte lists of a frame: the payload and the whole frame of a buffer by index, and the padded payload of
`build_chunk` (spec/20_memory.md R31, spec/41_encoder.md R84).
-/

namespace Sys2Proof.Machine

theorem getElem?_payloadOf (m : Memory) {i : Nat} (h : i < 128) : (payloadOf m)[i]? = some (m.byteAt (3 + i)) := by
  simp [payloadOf, Config.payloadLen, h]

theorem getElem?_frameBytes (m : Memory) {i : Nat} (h : i < 133) : (frameBytes m)[i]? = some (m.byteAt i) := by
  simp [frameBytes, Config.frameLen, h]

theorem length_padded (src : List Byte) (h : src.length ≤ 128) : (padded src).length = 128 := by
  simp [padded, Config.payloadLen]; omega

/-- Byte `i` of a padded payload is the source byte, or the pad byte from the source's end on. -/
theorem getElem?_padded (src : List Byte) {i : Nat} (h : i < 128) : (padded src)[i]? = some (src.getD i 0xFF) := by
  unfold padded
  simp only [Config.payloadLen, List.getElem?_append, List.length_take, List.getElem?_take]
  by_cases hi : i < src.length
  · rw [if_pos (by omega), if_pos h]; simp [hi]
  · rw [if_neg (by omega), List.getElem?_replicate, if_pos (by omega)]; simp [hi, Config.pad]

/-- A frame is its header, its payload and its trailer. -/
theorem frameBytes_eq (m : Memory) :
    frameBytes m = [m.byteAt 0, m.byteAt 1, m.byteAt 2] ++ payloadOf m ++ [m.byteAt 131, m.byteAt 132] := by
  apply List.ext_getElem?
  intro i
  by_cases hi : i < 133
  · rw [getElem?_frameBytes m hi]
    by_cases h3 : i < 3
    · interval_cases i <;> rfl
    · by_cases h131 : i < 131
      · rw [List.getElem?_append_left (by simp [length_payloadOf]; omega),
          List.getElem?_append_right (by simp; omega), getElem?_payloadOf _ (by simp; omega)]
        congr 2; simp; omega
      · rw [List.getElem?_append_right (by simp [length_payloadOf]; omega)]
        simp only [List.length_append, List.length_cons, List.length_nil, length_payloadOf]
        obtain rfl | rfl : i = 131 ∨ i = 132 := by omega
        · rfl
        · rfl
  · rw [List.getElem?_eq_none (by rw [length_frameBytes]; omega), List.getElem?_eq_none]
    simp [length_payloadOf]; omega

end Sys2Proof.Machine
end

