-- ==== Sys2Proof/Laws/PerInstr.lean ====
section
/-!
SUPPORT. Per-operation facts about the opcode map (spec/30_encoding.md R50): the encoded word of an operation is selected
by the match and mask of its own row.
-/

namespace Sys2Proof.Laws.OpcodeMap

/-- The word of `i` satisfies `w & mask == match` for the row of `i` (R50). -/
def Statement (i : Instr) : Prop := rowSelects (rowOf i) (encode i) = true

theorem nop : Statement .nop := by unfold Statement; decide
theorem rdreg (n : Byte) : Statement (.rdreg n) := by unfold Statement; revert n; decide +kernel
theorem errclr : Statement .errclr := by unfold Statement; decide
theorem srst : Statement .srst := by unfold Statement; decide
theorem crcclr : Statement .crcclr := by unfold Statement; decide
theorem crcbit (b : Bit) : Statement (.crcbit b) := by unfold Statement; revert b; decide
theorem crcbyte (d : Byte) : Statement (.crcbyte d) := by unfold Statement; revert d; decide +kernel
theorem crcflush : Statement .crcflush := by unfold Statement; decide
theorem txclr : Statement .txclr := by unfold Statement; decide
theorem txdata (d : Byte) : Statement (.txdata d) := by unfold Statement; revert d; decide +kernel
theorem txbuild : Statement .txbuild := by unfold Statement; decide
theorem txpop : Statement .txpop := by unfold Statement; decide
theorem txrew : Statement .txrew := by unfold Statement; decide
theorem blkset (v : Byte) : Statement (.blkset v) := by unfold Statement; revert v; decide +kernel
theorem blknext : Statement .blknext := by unfold Statement; decide
theorem blkrst : Statement .blkrst := by unfold Statement; decide
theorem rxclr : Statement .rxclr := by unfold Statement; decide
theorem rxbyte (d : Byte) : Statement (.rxbyte d) := by unfold Statement; revert d; decide +kernel
theorem rxpay (i : Byte) : Statement (.rxpay i) := by unfold Statement; revert i; decide +kernel

end Sys2Proof.Laws.OpcodeMap
end

