-- ==== Sys2Proof/Machine/Assembler.lean ====
section
/-!
DEFINITION. The assembler syntax of spec/30_encoding.md R60: one operation a line, numbers decimal or with `0x`, `;`
comments, register names after RDREG, `.word`, and the pseudo-instructions of R61. What R60 leaves open (blanks and
commas both separate, either case of hexadecimal digits, blank lines, the number after `.word`) is log 11.
-/

namespace Sys2Proof.Machine

/-- The line up to its comment (R60). -/
def withoutComment (line : List Char) : List Char := line.takeWhile (· != ';')

/-- The tokens of a line, with `cur` the characters read of the current one, last first. -/
def tokensFrom : List Char → List Char → List (List Char)
  | [], cur => if cur.isEmpty then [] else [cur.reverse]
  | c :: rest, cur =>
    if c == ' ' || c == '\t' || c == ',' then
      if cur.isEmpty then tokensFrom rest [] else cur.reverse :: tokensFrom rest []
    else tokensFrom rest (c :: cur)

/-- The value of a digit in a base up to 16. -/
def digitValue (base : Nat) (c : Char) : Option Nat :=
  let n := c.toNat
  let v := if 48 ≤ n ∧ n ≤ 57 then some (n - 48)
    else if 65 ≤ n ∧ n ≤ 70 then some (n - 55)
    else if 97 ≤ n ∧ n ≤ 102 then some (n - 87)
    else none
  match v with
  | some d => if d < base then some d else none
  | none => none

/-- The value of a digit string, from the value read so far. -/
def digitsFrom (base : Nat) : Nat → List Char → Option Nat
  | acc, [] => some acc
  | acc, c :: rest =>
    match digitValue base c with
    | some d => digitsFrom base (acc * base + d) rest
    | none => none

/-- A number in decimal, or in hexadecimal with `0x` (R60). -/
def numberOf : List Char → Option Nat
  | [] => none
  | '0' :: 'x' :: c :: rest => digitsFrom 16 0 (c :: rest)
  | c :: rest => digitsFrom 10 0 (c :: rest)

/-- The register names that may stand for register numbers after RDREG (R60). -/
def registerNames : List (String × Nat) :=
  [("CRC", 0), ("BLK", 1), ("TXCNT", 2), ("TXPOS", 3), ("RXPOS", 4), ("STATUS", 5), ("RXBLK", 6), ("RXCMP", 7),
    ("RXCRC", 8)]

/-- The mnemonics (R50) with their opcodes and, where the format has an operand, its largest value that fits (R60). -/
def mnemonicTable : List (String × Byte × Option Nat) :=
  [("NOP", 0x00, none), ("RDREG", 0x01, some 255), ("ERRCLR", 0x02, none), ("SRST", 0x03, none)] ++
  [("CRCCLR", 0x10, none), ("CRCBIT", 0x11, some 1), ("CRCBYTE", 0x12, some 255), ("CRCFLUSH", 0x13, none)] ++
  [("TXCLR", 0x20, none), ("TXDATA", 0x21, some 255), ("TXBUILD", 0x22, none), ("TXPOP", 0x23, none),
    ("TXREW", 0x24, none), ("BLKSET", 0x25, some 255), ("BLKNEXT", 0x26, none), ("BLKRST", 0x27, none)] ++
  [("RXCLR", 0x30, none), ("RXBYTE", 0x31, some 255), ("RXPAY", 0x32, some 255)]

/-- The entry of a name in a table. -/
def entryOf {α : Type} (table : List (String × α)) (name : List Char) : Option α :=
  match table.find? fun row => row.1.toList == name with
  | some row => some row.2
  | none => none

/-- An operand's value: a register name after RDREG, else a number (R60). -/
def operandOf (mnemonic tok : List Char) : Option Nat :=
  if mnemonic == "RDREG".toList then
    match entryOf registerNames tok with
    | some n => some n
    | none => numberOf tok
  else numberOf tok

/-- The operands of a pseudo-instruction, each a byte (R61). -/
def bytesOf : List (List Char) → Option (List Byte)
  | [] => some []
  | tok :: rest =>
    match numberOf tok, bytesOf rest with
    | some n, some ds => if n ≤ 255 then some (BitVec.ofNat 8 n :: ds) else none
    | _, _ => none

/-- The expansion of a pseudo-instruction (R61): none where the name or the operands do not fit. -/
def pseudoOf (name : List Char) (ds : List Byte) : Option (List Instr) :=
  if name == "CRC16".toList then some (crc16Seq ds)
  else if name == "TXLOAD".toList then if ds.length ≤ Config.payloadLen then some (txload ds) else none
  else if name == "TXSEND".toList then if ds.isEmpty then some txsend else none
  else if name == "TXRESEND".toList then if ds.isEmpty then some txresend else none
  else if name == "RXFRAME".toList then if ds.length = Config.frameLen then some (rxframe ds) else none
  else none

/-- One operation of R50: its word, none where the operand does not fit the format (an assembly error, R60). -/
def assembleOp (name : List Char) (row : Byte × Option Nat) (args : List (List Char)) : Option (List Word) :=
  match row.2, args with
  | none, [] => some [wordOf row.1 0x00]
  | some top, [tok] =>
    match operandOf name tok with
    | some v => if v ≤ top then some [wordOf row.1 (BitVec.ofNat 8 v)] else none
    | none => none
  | _, _ => none

/-- The words of one line; none is an assembly error (R60). R60 shows only the form `.word 0xNNNN`; that `.word` takes a
decimal number, or any count of hexadecimal digits, below 65536 is the model's choice (DESIGN CHOICE, log 11). -/
def assembleLine (line : List Char) : Option (List Word) :=
  match tokensFrom (withoutComment line) [] with
  | [] => some []
  | name :: args =>
    match entryOf mnemonicTable name with
    | some row => assembleOp name row args
    | none =>
      if name == ".word".toList then
        match args with
        | [tok] =>
          match numberOf tok with
          | some v => if v < 65536 then some [BitVec.ofNat 16 v] else none
          | none => none
        | _ => none
      else
        match bytesOf args with
        | some ds => (pseudoOf name ds).map (List.map encode)
        | none => none

/-- The words of a program, line by line. -/
def assemble : List (List Char) → Option (List Word)
  | [] => some []
  | line :: rest =>
    match assembleLine line, assemble rest with
    | some ws, some more => some (ws ++ more)
    | _, _ => none

end Sys2Proof.Machine
end

