-- ==== Sys2Proof/Tests/Slice0.lean ====
section
/-!
SUPPORT. Tests of one step or one decode each, with results from spec/95_test_vectors.md (the vector stands in the comment), words
written out from spec/30_encoding.md R50, ill-formed terms, and for every obligation with hypotheses a witness that meets
them.
-/

namespace Sys2Proof.Tests

open Sys2Proof.Machine Sys2Proof.Claims

/-- The state after one command word, none if the step does not give one. -/
def after (s : State) (w : Word) : Option State :=
  match step (present w s) with
  | .next t => some t
  | .fault _ => none
  | .refused _ => none

/-- The response to one command word, as `(E, D)`. -/
def response (s : State) (w : Word) : Option (Code × Word) :=
  match after s w with
  | some t => t.response.map fun r => (r.e, r.d)
  | none => none

/-- The response to a command word and one value of the state after it. -/
def outcome {α : Type} (view : State → α) (s : State) (w : Word) : Option (Code × Word × α) :=
  match after s w with
  | some t => t.response.map fun r => (r.e, r.d, view t)
  | none => none

/-- The buffer that holds these bytes from offset 0 on. -/
def bufferOf (bytes : List Byte) : Memory := ((List.range bytes.length).zip bytes).filter fun cell => cell.2 != 0x00

/-- The chunk V-CH-1: block 1, "Hello", padded, trailer 0B D0. -/
def hello : Memory :=
  bufferOf ([0x01, 0x01, 0xFE, 0x48, 0x65, 0x6C, 0x6C, 0x6F] ++ List.replicate 123 0xFF ++ [0x0B, 0xD0])

/-- The chunk V-CH-1 built, with `pos` of its bytes popped. -/
def helloBuilt (pos : Byte) : State := { State.reset with txcnt := 5, txpos := pos, txvalid := true, txf := hello }

/-- The chunk V-CH-1 received. -/
def helloReceived : State := { State.reset with rxpos := 133, rxf := hello }

/-- The chunk V-CH-4 received: block 0xFF, payload and trailer all zero. -/
def zeroReceived : State := { State.reset with rxpos := 133, rxf := [(0, 0x01), (1, 0xFF)] }

/-- `ERR = 1` with code `c`. -/
def withError (c : Code) (s : State) : State := { s with err := true, ecode := c }

/-! ### Well-formedness -/

theorem test_rdreg_9_is_ill_formed : wellFormed (.rdreg 9) = false := by decide
theorem test_rdreg_8_is_well_formed : wellFormed (.rdreg 8) = true := by decide
theorem test_rxpay_128_is_ill_formed : wellFormed (.rxpay 128) = false := by decide
theorem test_rxpay_127_is_well_formed : wellFormed (.rxpay 127) = true := by decide

/-! ### Decode: every constructor by its word from R50, then words that raise -/

theorem test_decode_system_words :
    decode 0b0000000000000000 = .ok .nop ∧ decode 0b0000000100001000 = .ok (.rdreg 8) ∧
    decode 0b0000001000000000 = .ok .errclr ∧ decode 0b0000001100000000 = .ok .srst := by decide

theorem test_decode_crc_words :
    decode 0b0001000000000000 = .ok .crcclr ∧ decode 0b0001000100000000 = .ok (.crcbit 0) ∧
    decode 0b0001000100000001 = .ok (.crcbit 1) ∧ decode 0b0001001010010110 = .ok (.crcbyte 0x96) ∧
    decode 0b0001001100000000 = .ok .crcflush := by decide

theorem test_decode_encoder_words :
    decode 0b0010000000000000 = .ok .txclr ∧ decode 0b0010000101001000 = .ok (.txdata 0x48) ∧
    decode 0b0010001000000000 = .ok .txbuild ∧ decode 0b0010001100000000 = .ok .txpop ∧
    decode 0b0010010000000000 = .ok .txrew ∧ decode 0b0010010111111110 = .ok (.blkset 0xFE) ∧
    decode 0b0010011000000000 = .ok .blknext ∧ decode 0b0010011100000000 = .ok .blkrst := by decide

theorem test_decode_decoder_words :
    decode 0b0011000000000000 = .ok .rxclr ∧ decode 0b0011000111010000 = .ok (.rxbyte 0xD0) ∧
    decode 0b0011001001111111 = .ok (.rxpay 127) := by decide

/-- V-DEC-2, 4, 5, 9, 10, 12, 16. -/
theorem test_decode_reserved_and_range :
    decode 0x0001 = .error .rsvd ∧ decode 0x0109 = .error .range ∧ decode 0x01FF = .error .range ∧
    decode 0x1102 = .error .rsvd ∧ decode 0x1181 = .error .rsvd ∧ decode 0x1301 = .error .rsvd ∧
    decode 0x3280 = .error .range := by decide

/-- V-DEC-6, 7, 13, 14, 17, 18, 19. -/
theorem test_decode_unassigned :
    decode 0x0400 = .error .illop ∧ decode 0x0F00 = .error .illop ∧ decode 0x1400 = .error .illop ∧
    decode 0x2800 = .error .illop ∧ decode 0x3300 = .error .illop ∧ decode 0x40FF = .error .illop ∧
    decode 0xFFFF = .error .illop := by decide

/-- The bits of a table word are numbered as the opcode table numbers them: bit 0 the least significant. -/
theorem test_table_word : decodeTableWord 16 0x1101 = some (.crcbit 1) ∧ decodeTableWord 16 0x0109 = none := by decide

/-- A fetched table word is the very next operation. -/
theorem test_withFetchWord :
    (match core.step (State.reset.withFetchWord 16 0x2507) with
     | .next t => decide (t.blk = 0x07)
     | .fault _ => false
     | .refused _ => false) = true := by decide

/-! ### System operations -/

/-- V-SYS-1, with an error on record. -/
theorem test_nop : outcome id (withError 5 (helloBuilt 40)) 0x0000 =
    some (0, 0x0000, answered (withError 5 (helloBuilt 40))) := by decide +kernel

/-- V-SYS-3. -/
theorem test_rdreg_counters :
    response { State.reset with txcnt := 128, txpos := 133 } 0x0102 = some (0, 0x0080) ∧
    response { State.reset with txcnt := 128, txpos := 133 } 0x0103 = some (0, 0x0085) := by decide

/-- V-SYS-4: ERR, ECODE = 5, TXVALID. -/
theorem test_rdreg_status : outcome (·.err) (withError 5 (helloBuilt 0)) 0x0105 = some (0, 0x0581, true) := by decide

/-- V-SYS-5. -/
theorem test_errclr : outcome (fun t => status t.toBlock) (withError 5 (helloBuilt 0)) 0x0200 = some (0, 0x0000, 0x0001) := by decide

/-- V-ERR-5. -/
theorem test_errclr_malformed : outcome (·.ecode) State.reset 0x0201 = some (2, 0x0000, 2) := by decide

/-- V-SYS-6. -/
theorem test_srst : outcome (·.toBlock)
    (withError 4 { State.reset with
      crc := 0xBEEF, blk := 0x2A, txcnt := 5, txvalid := true, txf := hello, rxpos := 133, rxf := hello })
    0x0300 = some (0, 0x0000, resetBlock) := by decide +kernel

/-- V-SYS-7. -/
theorem test_srst_malformed : outcome (·.toBlock) (helloBuilt 7) 0x0301 =
    some (2, 0x0000, (withError 2 (helloBuilt 7)).toBlock) := by decide +kernel

/-! ### CRC generator -/

/-- R70. -/
theorem test_crcclr : outcome (·.crc) { State.reset with crc := 0xBEEF } 0x1000 = some (0, 0x0000, 0x0000) := by decide

/-- V-UPD-3, 4, 5: the XOR is selected by the old bit 15 and bit 0 comes from the operand. -/
theorem test_crcbit :
    outcome (·.crc) { State.reset with crc := 0x4000 } 0x1100 = some (0, 0x0000, 0x8000) ∧
    outcome (·.crc) { State.reset with crc := 0x8000 } 0x1100 = some (0, 0x0000, 0x1021) ∧
    outcome (·.crc) { State.reset with crc := 0x8000 } 0x1101 = some (0, 0x0000, 0x1020) := by decide

/-- V-UPD-1, 2, 6, 7, 8, 9, 10. -/
theorem test_crcbit_more :
    crcUpdate 0x0000 0 = 0x0000 ∧ crcUpdate 0x0000 1 = 0x0001 ∧ crcUpdate 0x7FFF 1 = 0xFFFF ∧
    crcUpdate 0xFFFF 0 = 0xEFDF ∧ crcUpdate 0xFFFF 1 = 0xEFDE ∧ crcUpdate 0x0810 1 = 0x1021 ∧
    crcUpdate 0x1021 0 = 0x2042 := by decide

/-- V-BYTE-3, 5. -/
theorem test_crcbyte :
    outcome (·.crc) State.reset 0x1280 = some (0, 0x0000, 0x0080) ∧
    outcome (·.crc) { State.reset with crc := 0x0031 } 0x1232 = some (0, 0x0000, 0x3132) := by decide

/-- V-BYTE-6, 7, 8, 9. -/
theorem test_crcbyte_more :
    crcByte 0x1021 0x00 = 0x3331 ∧ crcByte 0x8000 0x00 = 0x9188 ∧ crcByte 0xFFFF 0xFF = 0xE10F ∧
    crcByte 0x1234 0x56 = 0x0625 := by decide +kernel

/-- V-FL-7. -/
theorem test_crcflush : outcome (·.crc) { State.reset with crc := 0xBEEF } 0x1300 =
    some (0, 0x0000, 0x31C3) := by decide +kernel

/-- V-FL-2, 4, 5, 6, 8, 9. -/
theorem test_crcflush_more :
    crcFlush 0x0001 = 0x1021 ∧ crcFlush 0x0080 = 0x9188 ∧ crcFlush 0x8000 = 0x1B98 ∧ crcFlush 0xFFFF = 0x1D0F ∧
    crcFlush 0x2672 = 0xF295 ∧ crcFlush 0x31C3 = 0xDF8B := by decide +kernel

/-- V-CRC-9, the catalogued check value, and V-CRC-1, 10, 11. -/
theorem test_crc16 :
    crc16 [0x31, 0x32, 0x33, 0x34, 0x35, 0x36, 0x37, 0x38, 0x39] = 0x31C3 ∧ crc16 [] = 0x0000 ∧
    crc16 [0x48, 0x65, 0x6C, 0x6C, 0x6F] = 0xCBD6 ∧ crc16 [0x12, 0x34, 0x56, 0x78] = 0xB42C := by decide +kernel

/-! ### Encoder -/

/-- V-TX-10. -/
theorem test_txclr : outcome (·.toBlock) (helloBuilt 40) 0x2000 =
    some (0, 0x0000, { resetBlock with txf := hello }) := by decide +kernel

/-- V-TX-1, 2: the first byte goes to offset 3, the last to 130. -/
theorem test_txdata :
    outcome (fun t => (t.txcnt, t.txf)) State.reset 0x2148 =
      some (0, 0x0000, 1, bufferOf [0, 0, 0, 0x48]) ∧
    outcome (fun t => (t.txcnt, t.txf)) { State.reset with txcnt := 127 } 0x21AA =
      some (0, 0x0000, 128, bufferOf (List.replicate 130 0x00 ++ [0xAA])) := by
  constructor <;> decide +kernel

/-- V-TX-3, 4, 5. -/
theorem test_txdata_refused :
    outcome (·.toBlock) { State.reset with txcnt := 128 } 0x21AA =
      some (5, 0x0000, (withError 5 { State.reset with txcnt := 128 }).toBlock) ∧
    response { State.reset with txcnt := 5, txvalid := true } 0x21AA = some (4, 0x0000) ∧
    response { State.reset with txcnt := 128, txvalid := true } 0x21AA = some (4, 0x0000) := by decide +kernel

set_option maxRecDepth 20000 in
/-- V-TX-12: TXBUILD straight after reset gives V-CH-2, trailer ED A9. -/
theorem test_txbuild_after_reset :
    outcome (fun t => (t.txvalid, t.txf)) State.reset 0x2200 = some (0, 0x0000, true,
      bufferOf ([0x01, 0x01, 0xFE] ++ List.replicate 128 0xFF ++ [0xED, 0xA9])) := by decide +kernel

set_option maxRecDepth 20000 in
/-- R78's example: five bytes loaded over an old buffer, block 1, give V-CH-1. -/
theorem test_txbuild_hello :
    outcome (·.txf)
      { State.reset with txcnt := 5, txpos := 9, txf := bufferOf [0, 7, 7, 0x48, 0x65, 0x6C, 0x6C, 0x6F, 0x55] }
      0x2200 = some (0, 0x0000, hello) := by decide +kernel

/-- V-TX-7: the last byte; TXVALID and TXDONE read 1. -/
theorem test_txpop : outcome (fun t => (t.txpos, status t.toBlock)) (helloBuilt 132) 0x2300 =
    some (0, 0x00D0, 133, 0x0003) := by decide +kernel

/-- V-TX-6, 7b. -/
theorem test_txpop_refused :
    response State.reset 0x2300 = some (4, 0x0000) ∧
    outcome (fun t => (t.txpos, t.ecode)) (helloBuilt 133) 0x2300 = some (6, 0x0000, 133, 6) := by decide +kernel

/-- V-TX-8. -/
theorem test_txrew : outcome (·.toBlock) (helloBuilt 133) 0x2400 =
    some (0, 0x0000, (helloBuilt 0).toBlock) := by decide +kernel

/-- V-BLK-6, 7. -/
theorem test_blkset :
    outcome (·.blk) State.reset 0x2500 = some (0, 0x0000, 0x00) ∧
    outcome (·.blk) State.reset 0x25FF = some (0, 0x0000, 0xFF) := by decide

/-- V-BLK-1, 2, 3, 4. -/
theorem test_blknext :
    outcome (·.blk) State.reset 0x2600 = some (0, 0x0000, 0x02) ∧
    outcome (·.blk) { State.reset with blk := 0xFE } 0x2600 = some (0, 0x0000, 0xFF) ∧
    outcome (·.blk) { State.reset with blk := 0xFF } 0x2600 = some (0, 0x0000, 0x00) ∧
    outcome (·.blk) { State.reset with blk := 0x00 } 0x2600 = some (0, 0x0000, 0x01) := by decide

/-- V-BLK-5. -/
theorem test_blkrst : outcome (·.blk) { State.reset with blk := 0x2A } 0x2700 = some (0, 0x0000, 0x01) := by decide

/-- V-LEN: payload lengths of transfers of 0, 127, 128, 129 and 257 bytes. -/
theorem test_pieces :
    (pieces []).map List.length = [] ∧
    (pieces (List.replicate 127 0x55)).map List.length = [127] ∧
    (pieces (List.replicate 128 0x55)).map List.length = [128] ∧
    (pieces (List.replicate 129 0x55)).map List.length = [128, 1] ∧
    (pieces (List.replicate 257 0x55)).map List.length = [128, 128, 1] := by decide +kernel

/-! ### Decoder -/

/-- V-RX-18: the flags drop although the buffer keeps the chunk. -/
theorem test_rxclr : outcome (fun t => (status t.toBlock, t.rxf)) helloReceived 0x3000 =
    some (0, 0x0000, 0x0000, hello) := by decide +kernel

/-- R92's example, and V-RX-17. -/
theorem test_rxbyte :
    outcome (fun t => (t.rxpos, t.rxf)) State.reset 0x3101 = some (0, 0x0000, 1, bufferOf [0x01]) ∧
    outcome (fun t => (t.rxpos, t.rxf)) helloReceived 0x3100 = some (7, 0x0000, 133, hello) := by
  constructor <;> decide +kernel

/-- V-RX-12, 13, 14, 15. -/
theorem test_rxpay :
    response helloReceived 0x3200 = some (0, 0x0048) ∧ response helloReceived 0x3204 = some (0, 0x006F) ∧
    response helloReceived 0x3205 = some (0, 0x00FF) ∧ response helloReceived 0x327F = some (0, 0x00FF) := by
  decide +kernel

/-- V-RX-16, 20, 21. -/
theorem test_rxpay_refused :
    response helloReceived 0x3280 = some (3, 0x0000) ∧ response State.reset 0x3200 = some (4, 0x0000) ∧
    response State.reset 0x3280 = some (3, 0x0000) := by decide +kernel

set_option maxRecDepth 20000 in
/-- V-RX-1. -/
theorem test_status_good_chunk : response helloReceived 0x0105 = some (0, 0x007C) := by decide +kernel

set_option maxRecDepth 20000 in
/-- V-RX-2: one payload bit. -/
theorem test_status_damaged_payload :
    response { helloReceived with rxf := hello.write 3 0x49 } 0x0105 = some (0, 0x001C) := by decide +kernel

set_option maxRecDepth 20000 in
/-- V-RX-7. -/
theorem test_status_all_checks_fail :
    response { helloReceived with rxf := ((hello.write 0 0x02).write 2 0x00).write 131 0x8B } 0x0105 =
      some (0, 0x0004) := by decide +kernel

/-- V-RX-1: the three views. -/
theorem test_receive_views :
    response helloReceived 0x0106 = some (0, 0x0001) ∧ response helloReceived 0x0107 = some (0, 0x00FE) ∧
    response helloReceived 0x0108 = some (0, 0x0BD0) := by decide +kernel

/-! ### Errors -/

/-- V-ERR-1: the record keeps the first error, the response carries its own. -/
theorem test_first_error_is_kept :
    outcome (·.ecode) State.reset 0x4000 = some (1, 0x0000, 1) ∧
    outcome (·.ecode) (withError 4 State.reset) 0x4000 = some (1, 0x0000, 4) ∧
    outcome (·.ecode) (withError 4 State.reset) 0x0109 = some (3, 0x0000, 4) := by decide

/-- V-ERR-4: a set ERR blocks nothing. -/
theorem test_error_blocks_nothing :
    outcome (·.crc) (withError 4 State.reset) 0x1231 = some (0, 0x0000, 0x0031) := by decide

/-- The hardware reset input. -/
theorem test_hardware_reset :
    (match step { helloBuilt 7 with port := .reset } with
     | .next t => decide (t = State.reset)
     | .fault _ => false
     | .refused _ => false) = true := by decide +kernel

/-! ### Assembler: the examples of R60 and the expansions of R61 -/

theorem test_assemble_examples :
    assembleLine "CRCBYTE 0x31".toList = some [0x1231] ∧ assembleLine "TXPOP".toList = some [0x2300] ∧
    assembleLine "RDREG 5".toList = some [0x0105] ∧ assembleLine "CRCBIT 1 ; bit".toList = some [0x1101] ∧
    assembleLine "RDREG STATUS".toList = some [0x0105] ∧ assembleLine "RXPAY 200".toList = some [0x32C8] ∧
    assembleLine ".word 0x4000".toList = some [0x4000] := by decide +kernel

theorem test_assembly_errors :
    assembleLine "CRCBIT 2".toList = none ∧ assembleLine "CRCBYTE 256".toList = none ∧
    assembleLine "TXPOP 0".toList = none ∧ assembleLine "RXFRAME 1, 2".toList = none := by decide +kernel

theorem test_assemble_pseudo :
    assembleLine "CRC16 0x31, 50".toList = some [0x1000, 0x1231, 0x1232, 0x1300] ∧
    assembleLine "TXLOAD 0x48".toList = some [0x2000, 0x2148, 0x2200] ∧
    assembleLine "TXRESEND".toList = some (0x2400 :: List.replicate 133 0x2300) := by decide +kernel

/-! ### Witnesses: for each obligation with hypotheses, states and operands that meet them, clause by clause -/

theorem witness_StepRunsTheDecodedInstruction :
    (present 0x1231 State.reset).port = .command 0x1231 ∧ decode 0x1231 = .ok (.crcbyte 0x31) ∧
    (present 0x0400 State.reset).port = .command 0x0400 ∧ decode 0x0400 = .error .illop := by decide

theorem witness_SrstGivesTheResetState :
    State.reset.toBlock = resetBlock ∧ 2 ≤ (2 : Byte).toNat ∧ (8 : Byte).toNat ≤ 8 := by decide

theorem witness_HardwareResetMatchesSrst :
    { helloBuilt 7 with port := .reset }.port = .reset := by decide

theorem witness_BlockWaitsWithoutInput :
    State.reset.port = .quiet ∧ (answered State.reset).port = .response { e := 0, d := 0x0000 } ∧
    wellFormed (.rxpay 127) = true := by decide

theorem witness_DecodeFollowsTheOpcodeMap :
    (0x04 : Byte) ∉ opcodes ∧ ((0x30, .rxclr) : Byte × Instr) ∈ formatNOps ∧ decode 0x0108 = .ok (.rdreg 8) := by decide

theorem witness_EncodeThenDecode :
    wellFormed (.rdreg 0) = true ∧ wellFormed (.rdreg 8) = true ∧ wellFormed (.rxpay 0) = true ∧
    wellFormed (.rxpay 127) = true ∧ wellFormed (.crcbyte 0xFF) = true := by decide

theorem witness_ReservedWordsAreCounted :
    decode 0x0400 = .error .illop ∧ decode 0x0001 = .error .rsvd ∧ decode 0x0109 = .error .range := by decide

theorem witness_RowsNeverOverlap :
    decode 0x1101 = .ok (.crcbit 1) ∧ rowSelects (rowOf (.crcbit 0)) 0x1101 = true ∧
    rowSelects (rowOf (.crcbit 1)) 0x1101 = true := by decide

theorem witness_ErrorEntry : (0x0106 : Word) ≠ 0x0105 := by decide

/-- Clause by clause: an error already on record, no error and success, no error and failure, ERRCLR and SRST, a record
that is consistent. -/
theorem witness_FirstErrorIsKept :
    (∃ t, step (present 0x4000 (withError 4 State.reset)) = .next t ∧ (withError 4 State.reset).err = true) ∧
    (∃ t r, step (present 0x1231 State.reset) = .next t ∧ t.port = .response r ∧ r.e = 0) ∧
    (∃ t r, step (present 0x4000 State.reset) = .next t ∧ t.port = .response r ∧ r.e ≠ 0) ∧
    (∃ t, step (present 0x0200 (withError 4 State.reset)) = .next t) ∧
    (∃ t, step (present 0x0300 (withError 4 State.reset)) = .next t) ∧
    (State.reset.err = false ↔ State.reset.ecode = 0) :=
  ⟨⟨_, rfl, rfl⟩, ⟨_, _, rfl, rfl, rfl⟩, ⟨_, _, rfl, rfl, by decide⟩, ⟨_, rfl⟩, ⟨_, rfl⟩, by decide⟩

theorem witness_FirstApplicableErrorIsReported :
    InRange State.reset ∧ InRange { State.reset with txcnt := 128, txpos := 133, txvalid := true, rxpos := 133 } := by
  unfold InRange; decide

theorem witness_ErrorsArePrecise :
    ∃ t r, step (present 0x4000 State.reset) = .next t ∧ t.port = .response r ∧ r.e ≠ 0 :=
  ⟨_, _, rfl, rfl, by decide⟩

theorem witness_EveryCommandIsAnswered :
    InRange State.reset ∧ InRange { State.reset with txcnt := 128, txpos := 133, txvalid := true, rxpos := 133 } ∧
    response State.reset 0x0101 = some (0, 0x0001) ∧ response State.reset 0x4000 = some (1, 0x0000) := by
  unfold InRange; decide

theorem witness_ErrclrClearsTheRecord : ∃ t, exec .errclr (withError 4 State.reset) = .next t := ⟨_, rfl⟩

theorem witness_CrcUpdateBits : (0 : Nat) < 16 ∧ (15 : Nat) < 16 := by decide

theorem witness_Crc16IsLinear : ([0x12, 0x34] : List Byte).length = ([0xFF, 0x00] : List Byte).length := by decide

theorem witness_SingleBitChangesCrc16 :
    0 < ([0x31, 0x32] : List Byte).length ∧ 1 < ([0x31, 0x32] : List Byte).length ∧ (0 : Nat) < 8 ∧ (7 : Nat) < 8 := by
  decide

theorem witness_ClearsStartANewChunk :
    (∃ t, exec .txclr (helloBuilt 40) = .next t) ∧ (∃ t, exec .rxclr helloReceived = .next t) := ⟨⟨_, rfl⟩, ⟨_, rfl⟩⟩

/-- A built chunk, 128 bytes loaded, and the first and last place. -/
theorem witness_TxdataLoadsOneByte :
    (helloBuilt 0).txvalid = true ∧
    ({ State.reset with txcnt := 128 }.txvalid = false ∧ { State.reset with txcnt := 128 }.txcnt.toNat = 128) ∧
    (State.reset.txvalid = false ∧ State.reset.txcnt.toNat < 128) ∧
    ({ State.reset with txcnt := 127 }.txvalid = false ∧ { State.reset with txcnt := 127 }.txcnt.toNat < 128) := by
  decide

theorem witness_TxbuildWritesTheFrame :
    (0 < 128 ∧ 127 < 128 ∧ 132 < 133) ∧
    { State.reset with txcnt := 128 }.txcnt.toNat ≤ 128 ∧ State.reset.txcnt = 0 ∧
    ∃ t u, exec .txbuild State.reset = .next t ∧ exec .txbuild { t with blk := 7 } = .next u :=
  ⟨by decide, by decide, rfl, _, _, rfl, rfl⟩

theorem witness_BuildChunkLayout :
    ([] : List Byte).length ≤ 128 ∧ (List.replicate 128 (0x55 : Byte)).length ≤ 128 ∧ 0 < 128 ∧ 127 < 128 := by simp

theorem witness_TxpopAnswersTheNextByte :
    State.reset.txvalid = false ∧
    ((helloBuilt 133).txvalid = true ∧ (helloBuilt 133).txpos.toNat = 133) ∧
    ((helloBuilt 132).txvalid = true ∧ (helloBuilt 132).txpos.toNat < 133) ∧
    ((helloBuilt 0).txvalid = true ∧ (helloBuilt 0).txpos = 0) := by decide

theorem witness_TxrewSendsTheSameBytesAgain :
    (∃ t, exec .txrew (helloBuilt 133) = .next t) ∧ (helloBuilt 133).txvalid = true := ⟨⟨_, rfl⟩, rfl⟩

theorem witness_BuiltChunkIsFrozen :
    (∃ t, exec .txpop (helloBuilt 0) = .next t) ∧ (helloBuilt 0).txvalid = true ∧ Instr.txpop ≠ .txbuild ∧
    Instr.txpop ≠ .srst ∧ Instr.txpop ≠ .txclr := ⟨⟨_, rfl⟩, rfl, by decide, by decide, by decide⟩

theorem witness_TxloadBuildsTheChunk :
    ([] : List Byte).length ≤ 128 ∧ (List.replicate 128 (0x55 : Byte)).length ≤ 128 := by simp

theorem witness_TransferBuildsOneChunkPerPiece :
    (pieces (List.replicate 129 0x55))[0]? = some (List.replicate 128 0x55) ∧
    (pieces (List.replicate 129 0x55))[1]? = some [0x55] ∧ 0 + 1 < (pieces (List.replicate 129 0x55)).length := by
  decide +kernel

theorem witness_RxbyteStoresTheByte :
    helloReceived.rxpos.toNat = 133 ∧ State.reset.rxpos.toNat < 133 ∧
    { State.reset with rxpos := 132 }.rxpos.toNat < 133 := by decide

/-- The clauses of RXPAY meet at index 127 and 128 and at RXPOS 132 and 133. -/
theorem witness_RxpayReadsThePayload :
    127 < (128 : Byte).toNat ∧ ¬127 < (127 : Byte).toNat ∧ { State.reset with rxpos := 132 }.rxpos.toNat ≠ 133 ∧
    ¬helloReceived.rxpos.toNat ≠ 133 := by decide

theorem witness_VerdictFlags : { State.reset with rxpos := 132 }.rxpos.toNat < 133 := by decide

theorem witness_RxframeReceivesTheBytes : (List.replicate 133 (0x55 : Byte)).length = 133 := by simp

theorem witness_EncodedChunkIsAccepted :
    ([] : List Byte).length ≤ 128 ∧ (List.replicate 128 (0x55 : Byte)).length ≤ 128 ∧ (127 : Byte).toNat ≤ 127 := by simp

set_option maxRecDepth 20000 in
theorem witness_DamageIsDetected :
    rxOk zeroReceived.toBlock = true ∧ (3 ≤ 3 ∧ 132 ≤ 132 ∧ 0 < 8 ∧ 7 < 8) ∧ (1 = 1 ∨ 1 = 2) ∧ (2 = 1 ∨ 2 = 2) ∧ (0x02 : Byte) ≠ 0x01 := by decide +kernel

theorem witness_OnlyTheListedWriters :
    (∃ t, exec (.crcbyte 0x31) (helloBuilt 7) = .next t ∧ Succeeded t) ∧ Instr.crcbyte 0x31 ≠ .srst :=
  ⟨⟨_, rfl, _, rfl⟩, by decide⟩

/-- CRCBYTE, TXDATA and RXBYTE from reset: one operation of each of the three groups. -/
theorem witness_GroupsDoNotDisturbOneAnother :
    ∃ u v x, exec (.crcbyte 0x31) State.reset = .next u ∧ Succeeded u ∧ exec (.txdata 0x48) State.reset = .next v ∧
      Succeeded v ∧ exec (.rxbyte 0x01) State.reset = .next x ∧ Succeeded x ∧ group (.crcbyte 0x31) = 1 ∧
      group (.txdata 0x48) = 2 ∧ group (.rxbyte 0x01) = 3 :=
  ⟨_, _, _, rfl, ⟨_, rfl⟩, rfl, ⟨_, rfl⟩, rfl, ⟨_, rfl⟩, rfl, rfl, rfl⟩

theorem witness_AccessBeyondTheFrameFaults :
    ({ State.reset with txcnt := 129 }.txvalid = false ∧ { State.reset with txcnt := 129 }.txcnt.toNat = 129) ∧
    ({ State.reset with txcnt := 130 }.txvalid = false ∧ 130 ≤ { State.reset with txcnt := 130 }.txcnt.toNat) ∧
    ((helloBuilt 134).txvalid = true ∧ 133 < (helloBuilt 134).txpos.toNat) ∧
    133 < { State.reset with rxpos := 134 }.rxpos.toNat := by decide

set_option maxRecDepth 20000 in
/-- A state within the invariants that holds a built chunk, with and without input. -/
theorem witness_LegalStateIsKept : (helloBuilt 40).Legal ∧ ∃ t, step (helloBuilt 40) = .next t :=
  ⟨⟨by decide, by decide, by decide, by decide, by decide, fun h => absurd h (by decide),
    fun _ => ⟨by decide +kernel, by decide +kernel, by decide +kernel, by decide +kernel⟩, by decide +kernel,
    by decide +kernel⟩, _, rfl⟩

theorem witness_LegalStateNeverStops : (helloBuilt 40).Legal := witness_LegalStateIsKept.1

/-- An operation that gives a next state. -/
theorem witness_PortIsNoStateOfTheBlock : ∃ t, State.reset.operate (operation (.crcbyte 0x31)) = .next t := ⟨_, rfl⟩

/-- Three words, the second of which raises E_ILLOP, and their responses. -/
theorem witness_CommandStreamIsAnsweredInOrder :
    InRange State.reset ∧ ([0x1231, 0x0400, 0x0100] : List Word)[2]? = some 0x0100 ∧
    (match commands [0x1231, 0x0400, 0x0100] Block.reset with
     | .next (b, rs) => decide (b.ecode = 1 ∧ rs.map Response.packed = [0x00000, 0x10000, 0x00031])
     | .fault _ => false
     | .refused _ => false) = true := by
  unfold InRange; decide

theorem witness_BuffersStayCanonical :
    (helloBuilt 40).txf.wf = true ∧ helloReceived.rxf.wf = true ∧ ∃ t, step (helloBuilt 40) = .next t :=
  ⟨by decide +kernel, by decide +kernel, _, rfl⟩

end Sys2Proof.Tests
end

section
/-!
What a step makes of a presented command word, the part of it that every statement about the system operations and the
error record goes through.
-/

namespace Sys2Proof.Machine

open Sys2Proof.Claims

/-! ### Presented words -/

theorem command_of_ok {w : Word} {i : Instr} (h : decode w = .ok i) : command w = operation i := by
  funext b
  simp only [command, h]

theorem command_of_error {w : Word} {x : ErrName} (h : decode w = .error x) : command w = raise x := by
  funext b
  simp only [command, h]

/-- The step on a presented word does not depend on what stood on the port before. -/
theorem step_present (w : Word) (s : State) : step (present w s) = s.operate (command w) :=
  step_eq_operate rfl

theorem step_present_of_ok {w : Word} {i : Instr} (h : decode w = .ok i) (s : State) :
    step (present w s) = exec i s := by
  rw [step_present, command_of_ok h, exec_eq_operate]

theorem operate_raise_eq_raised (x : ErrName) (s : State) : s.operate (raise x) = .next (raised (errCode x) s) :=
  operate_raise x s

theorem step_present_of_error {w : Word} {x : ErrName} (h : decode w = .error x) (s : State) :
    step (present w s) = .next (raised (errCode x) s) := by
  rw [step_present, command_of_error h, operate_raise_eq_raised]

/-! ### The formats -/

/-- A row of the opcode map in format N gives the step R46 describes. -/
theorem isFormatN_of_decodeFields {opc : Byte} {i : Instr} (h : ∀ arg, decodeFields opc arg = formatN i arg) :
    IsFormatN opc i := by
  intro s arg
  have hd : decode (opc ++ arg) = formatN i arg := (decode_wordOf opc arg).trans (h arg)
  by_cases ha : arg = 0x00
  · rw [if_pos ha, step_present_of_ok (hd.trans (if_pos ha))]
  · rw [if_neg ha, step_present_of_error (hd.trans (if_neg ha)), errCode]

/-- The operand bit of format T put back into `ARG` (R48, R51). -/
theorem argOfBit_extractLsb' {arg : Byte} (h : arg.extractLsb' 1 7 = 0) : argOfBit (arg.extractLsb' 0 1) = arg := by
  rw [argOfBit, ← BitVec.ofNat_eq_ofNat, ← h, BitVec.extractLsb'_append_extractLsb'_eq_extractLsb'] <;> simp

theorem encode_of_formatN {opc arg : Byte} {i j : Instr} (hi : encode i = wordOf opc 0x00)
    (h : formatN i arg = .ok j) : encode j = wordOf opc arg := by
  unfold formatN at h
  split_ifs at h with harg
  cases h
  rw [hi, harg]

theorem encode_of_formatB {opc arg : Byte} {f : Byte → Instr} {j : Instr} (hf : encode (f arg) = wordOf opc arg)
    (h : formatB f arg = .ok j) : encode j = wordOf opc arg := by
  cases h
  exact hf

theorem encode_of_formatT {opc arg : Byte} {f : Bit → Instr} {j : Instr}
    (hf : ∀ b, encode (f b) = wordOf opc (argOfBit b)) (h : formatT f arg = .ok j) : encode j = wordOf opc arg := by
  unfold formatT at h
  split_ifs at h with harg
  cases h
  rw [hf, argOfBit_extractLsb' harg]

theorem encode_of_formatI {opc arg : Byte} {f : Byte → Instr} {top : Nat} {j : Instr}
    (hf : encode (f arg) = wordOf opc arg) (h : formatI f top arg = .ok j) : encode j = wordOf opc arg := by
  unfold formatI at h
  split_ifs at h
  cases h
  exact hf

/-- A pair of fields that decodes to an operation makes up that operation's word (R51). -/
theorem encode_of_decodeFields {opc arg : Byte} {i : Instr} (h : decodeFields opc arg = .ok i) :
    encode i = wordOf opc arg := by
  unfold decodeFields at h
  split at h
  -- the rows of the opcode map, in its order
  · exact encode_of_formatN rfl h
  · exact encode_of_formatI rfl h
  · exact encode_of_formatN rfl h
  · exact encode_of_formatN rfl h
  · exact encode_of_formatN rfl h
  · exact encode_of_formatT (fun _ => rfl) h
  · exact encode_of_formatB rfl h
  · exact encode_of_formatN rfl h
  · exact encode_of_formatN rfl h
  · exact encode_of_formatB rfl h
  · exact encode_of_formatN rfl h
  · exact encode_of_formatN rfl h
  · exact encode_of_formatN rfl h
  · exact encode_of_formatB rfl h
  · exact encode_of_formatN rfl h
  · exact encode_of_formatN rfl h
  · exact encode_of_formatN rfl h
  · exact encode_of_formatB rfl h
  · exact encode_of_formatI rfl h
  · cases h

/-- A word that decodes to an operation is that operation's word (R51). -/
theorem encode_of_decode {w : Word} {i : Instr} (h : decode w = .ok i) : encode i = w := by
  rw [encode_of_decodeFields h, wordOf_fields]

end Sys2Proof.Machine
end

section
/-!
What a step can do to the error record (spec/10_state.md R21): keep it, clear it, or record the error it raises.
-/

namespace Sys2Proof.Machine

open Sys2Proof.Claims

/-- The record as it was. -/
def RecordKept (s t : State) : Prop := t.err = s.err ∧ t.ecode = s.ecode

/-- The record after ERRCLR, SRST and reset. -/
def RecordCleared (t : State) : Prop := t.err = false ∧ t.ecode = 0

/-- What an operation can do to the record: ERRCLR and SRST clear it, every other operation raises an error or succeeds
and keeps it. -/
theorem Effect.record {s t : State} {i : Instr} (h : Effect s i t) :
    (RecordCleared t ∧ (i = .errclr ∨ i = .srst)) ∨ (RecordKept s t ∧ Succeeded t) ∨
      ∃ x, t = Claims.raised (errCode x) s := by
  cases h with
  | raised _ x => exact .inr (.inr ⟨x, rfl⟩)
  | errclr => exact .inl ⟨⟨rfl, rfl⟩, .inl rfl⟩
  | srst => exact .inl ⟨⟨rfl, rfl⟩, .inr rfl⟩
  | _ => exact .inr (.inl ⟨⟨rfl, rfl⟩, _, rfl⟩)

/-- The same for a presented word, whose decode may raise as well. -/
theorem step_present_record {w : Word} {s t : State} (h : step (present w s) = .next t) :
    (RecordCleared t ∧ (w = 0x0200 ∨ w = 0x0300)) ∨ (RecordKept s t ∧ Succeeded t) ∨
      ∃ x, t = raised (errCode x) s := by
  cases hd : decode w with
  | ok i =>
    rw [step_present_of_ok hd] at h
    have hw := encode_of_decode hd
    obtain ⟨hc, rfl | rfl⟩ | hrest := (effect_of_exec h).record
    · exact .inl ⟨hc, .inl hw.symm⟩
    · exact .inl ⟨hc, .inr hw.symm⟩
    · exact .inr hrest
  | error x =>
    rw [step_present_of_error hd] at h
    injection h with h
    exact .inr (.inr ⟨x, h.symm⟩)

theorem RecordKept.err_iff {s t : State} (h : RecordKept s t) (hs : s.err = false ↔ s.ecode = 0) :
    t.err = false ↔ t.ecode = 0 := by
  rw [h.1, h.2]
  exact hs

theorem RecordCleared.err_iff {t : State} (h : RecordCleared t) : t.err = false ↔ t.ecode = 0 :=
  iff_of_true h.1 h.2

theorem raised_err_iff {s : State} (x : ErrName) (hs : s.err = false ↔ s.ecode = 0) :
    (raised (errCode x) s).err = false ↔ (raised (errCode x) s).ecode = 0 := by
  have hx := errCode_ne_zero x
  cases he : s.err
  · simp [raised, he, hx]
  · simpa [raised, he] using hs

/-- The first error is kept: raising another one leaves the record alone. -/
theorem recordKept_raised {s : State} (e : Code) (hs : s.err = true) : RecordKept s (raised e s) :=
  ⟨hs.symm, if_pos hs⟩

/-- Whatever a step does, `ERR = 0` still goes with `ECODE = 0`. -/
theorem step_err_iff {s t : State} (hs : s.err = false ↔ s.ecode = 0) (h : step s = .next t) :
    t.err = false ↔ t.ecode = 0 := by
  obtain ⟨-, rfl⟩ | ⟨-, rfl⟩ | ⟨w, i, -, -, heff⟩ | ⟨w, x, -, -, hx⟩ := step_cases h
  · exact hs
  · exact iff_of_true rfl rfl
  · obtain ⟨hc, -⟩ | ⟨hk, -⟩ | ⟨x, rfl⟩ := heff.record
    · exact hc.err_iff
    · exact hk.err_iff hs
    · exact raised_err_iff x hs
  · rw [operate_raise_eq_raised] at hx
    cases hx
    exact raised_err_iff x hs

/-- ERRCLR (0x0200) and SRST (0x0300) clear the record. -/
theorem recordCleared_of_clearing {w : Word} {s t : State} (hw : w = 0x0200 ∨ w = 0x0300)
    (h : step (present w s) = .next t) : RecordCleared t := by
  obtain rfl | rfl := hw
  · rw [step_present_of_ok (i := .errclr) rfl] at h
    cases h
    exact ⟨rfl, rfl⟩
  · rw [step_present_of_ok (i := .srst) rfl] at h
    cases h
    exact ⟨rfl, rfl⟩

/-- With an error in the record, only ERRCLR and SRST change it. -/
theorem recordKept_of_err {w : Word} {s t : State} (h : step (present w s) = .next t) (hs : s.err = true)
    (he : w ≠ 0x0200) (hr : w ≠ 0x0300) : RecordKept s t := by
  obtain ⟨-, hw⟩ | ⟨hk, -⟩ | ⟨x, rfl⟩ := step_present_record h
  · exact absurd hw (not_or.2 ⟨he, hr⟩)
  · exact hk
  · exact recordKept_raised _ hs

/-- With no error in the record, a success keeps it and an error is recorded with the code it answers. -/
theorem record_of_response {w : Word} {s t : State} {r : Response} (h : step (present w s) = .next t)
    (hs : s.err = false) (he : w ≠ 0x0200) (hr : w ≠ 0x0300) (hp : t.port = .response r) :
    (r.e = 0 ∧ RecordKept s t) ∨ (r.e ≠ 0 ∧ t.err = true ∧ t.ecode = r.e) := by
  obtain ⟨-, hw⟩ | ⟨hk, d, hd⟩ | ⟨x, rfl⟩ := step_present_record h
  · exact absurd hw (not_or.2 ⟨he, hr⟩)
  · rw [hd] at hp
    cases hp
    exact .inl ⟨rfl, hk⟩
  · cases hp
    exact .inr ⟨errCode_ne_zero x, rfl, by simp [raised, hs]⟩

/-- Settles O11, from what a step can do to the record. -/
theorem firstErrorIsKept : Obligations.FirstErrorIsKept := by
  refine ⟨⟨rfl, rfl⟩, ?_, ?_, fun s t w => recordCleared_of_clearing, fun s t => step_err_iff⟩
  · intro w s t h hs he hr
    obtain ⟨herr, hcode⟩ := recordKept_of_err h hs he hr
    exact ⟨herr.trans hs, hcode⟩
  · intro w s t r h hs he hr hp
    obtain ⟨hz, herr, hcode⟩ | ⟨hnz, hrec⟩ := record_of_response h hs he hr hp
    · exact ⟨fun _ => ⟨herr.trans hs, hcode⟩, fun hnz => absurd hz hnz⟩
    · exact ⟨fun hz => absurd hz hnz, fun _ => hrec⟩

end Sys2Proof.Machine
end

section
/-!
STATUS bit by bit and the register number space of RDREG (spec/10_state.md R22, R25).
-/

namespace Sys2Proof.Machine

open Sys2Proof.Claims

/-! ### STATUS (R22) -/

/-- STATUS as its flags put one by one below `ECODE`, the form in which single bits are read. -/
theorem status_eq_concat (b : Block) : status b =
    ((((((((0#4 ++ b.ecode).concat b.err).concat (rxOk b)).concat (crcOk b)).concat (cmpOk b)).concat (sohOk b)).concat
      (rxDone b)).concat (txDone b)).concat b.txvalid := rfl

/-- Bits 7:0 of STATUS are the flags, from bit 0 up. -/
theorem status_flags (b : Block) :
    (status b).getLsbD 0 = b.txvalid ∧ (status b).getLsbD 1 = txDone b ∧ (status b).getLsbD 2 = rxDone b ∧
      (status b).getLsbD 3 = sohOk b ∧ (status b).getLsbD 4 = cmpOk b ∧ (status b).getLsbD 5 = crcOk b ∧
      (status b).getLsbD 6 = rxOk b ∧ (status b).getLsbD 7 = b.err := by
  simp [status_eq_concat]

/-- From bit 8 up STATUS is `ECODE`, extended with zeros. -/
theorem status_getLsbD_high (b : Block) (i : Nat) : (status b).getLsbD (8 + i) = b.ecode.getLsbD i := by
  have hzero : (0#4 ++ b.ecode).getLsbD i = b.ecode.getLsbD i := by
    rw [BitVec.getLsbD_append]
    by_cases hi : i < 4
    · rw [if_pos hi]
    · rw [if_neg hi, BitVec.getLsbD_zero, BitVec.getLsbD_of_ge _ _ (not_lt.1 hi)]
  rw [← hzero]
  simp [status_eq_concat, BitVec.getLsbD_concat]

theorem status_ecode (b : Block) : (status b).extractLsb' 8 4 = b.ecode := by
  apply BitVec.eq_of_getLsbD_eq
  intro i hi
  rw [BitVec.getLsbD_extractLsb', status_getLsbD_high, decide_eq_true hi, Bool.true_and]

theorem status_reserved (b : Block) : (status b).extractLsb' 12 4 = 0 := by
  apply BitVec.eq_of_getLsbD_eq
  intro i hi
  rw [BitVec.getLsbD_extractLsb', show 12 + i = 8 + (4 + i) by omega, status_getLsbD_high,
    BitVec.getLsbD_of_ge _ _ (by omega), Bool.and_false, BitVec.ofNat_eq_ofNat, BitVec.getLsbD_zero]

/-! ### The flags as R22 and R94 word them -/

theorem rxDone_eq (b : Block) : rxDone b = decide (b.rxpos.toNat = 133) := by
  rw [rxDone, beq_eq_decide]
  simp [← BitVec.toNat_inj]

theorem txDone_eq (b : Block) : txDone b = (b.txvalid && decide (b.txpos.toNat = 133)) := by
  rw [txDone, beq_eq_decide]
  simp [← BitVec.toNat_inj]

theorem sohOk_eq (b : Block) : sohOk b = (decide (b.rxpos.toNat = 133) && decide (b.rxf.byteAt 0 = 0x01)) := by
  rw [sohOk, rxDone_eq, beq_eq_decide, Config.soh]

/-- The complement of a byte as a number (R85). -/
theorem eq_complement_iff (v w : Byte) : v = complement w ↔ v.toNat = 255 - w.toNat := by
  unfold complement
  bv_omega

theorem cmpOk_eq (b : Block) : cmpOk b =
    (decide (b.rxpos.toNat = 133) && decide ((b.rxf.byteAt 2).toNat = 255 - (b.rxf.byteAt 1).toNat)) := by
  rw [cmpOk, rxDone_eq, beq_eq_decide, rxCmp, rxBlk]
  simp only [eq_complement_iff]

theorem crcOk_eq (b : Block) : crcOk b =
    (decide (b.rxpos.toNat = 133) && decide (crc16 (payloadOf b.rxf) = b.rxf.byteAt 131 ++ b.rxf.byteAt 132)) := by
  rw [crcOk, rxDone_eq, beq_eq_decide, rxCrc, bigEndian]

/-! ### RDREG (R25, R102) -/

theorem exec_rdreg_of_some {s : State} {n : Byte} {v : Word} (h : reg s.toBlock n = some v) :
    exec (.rdreg n) s = .next { s with port := .response { e := 0, d := v } } :=
  operate_of_next (op := opRdreg n) (by simp only [opRdreg, h, answer])

theorem exec_rdreg_of_none {s : State} {n : Byte} (h : reg s.toBlock n = none) :
    exec (.rdreg n) s = .next (raised 3 s) :=
  operate_of_next (op := opRdreg n) (by simp only [opRdreg, h, raise_eq, errCode])

/-- Register numbers 0 to 8 have the values R25 names. -/
theorem reg_eq_registerView (s : State) {n : Byte} (h : n.toNat ≤ 8) :
    reg s.toBlock n = some (registerView s n.toNat) := by
  obtain ⟨k, hk, rfl⟩ : ∃ k ≤ 8, n = BitVec.ofNat 8 k := ⟨n.toNat, h, by simp⟩
  interval_cases k <;> rfl

/-- Register numbers above 8 name no register. -/
theorem reg_eq_none (b : Block) {n : Byte} (h : 8 < n.toNat) : reg b n = none := by
  unfold reg
  split
  case h_10 => rfl
  all_goals exact absurd h (by decide)

theorem exec_rdreg (s : State) (n : Byte) : exec (.rdreg n) s =
    if n.toNat ≤ 8 then .next { s with port := .response { e := 0, d := registerView s n.toNat } }
    else .next (raised 3 s) := by
  split_ifs with h
  · exact exec_rdreg_of_some (reg_eq_registerView s h)
  · exact exec_rdreg_of_none (reg_eq_none s.toBlock (not_le.1 h))

/-- The index check of decode and the operation's own agree (log 10). -/
theorem step_rdregWord (s : State) (arg : Byte) : step (present (0x01#8 ++ arg) s) = exec (.rdreg arg) s := by
  have hd : decode (0x01#8 ++ arg) = formatI .rdreg topRegister arg := decode_wordOf 0x01 arg
  by_cases h : arg.toNat ≤ 8
  · exact step_present_of_ok (hd.trans (if_pos h)) s
  · rw [step_present_of_error (hd.trans (if_neg h)), exec_rdreg, if_neg h, errCode]

/-- Settles O15, from the bits of STATUS and the flags in the spec's words. -/
theorem statusBits : Obligations.StatusBits := by
  intro s
  obtain ⟨h0, h1, h2, h3, h4, h5, h6, h7⟩ := status_flags s.toBlock
  refine ⟨h0, h1.trans (txDone_eq _), h2.trans (rxDone_eq _), h3.trans (sohOk_eq _), h4.trans (cmpOk_eq _),
    h5.trans (crcOk_eq _), ?_, h7, status_ecode _, status_reserved _, exec_rdreg_of_some rfl⟩
  rw [h6, h3, h4, h5, rxOk]

/-- Settles O16, the register number space against the range check. -/
theorem registerReads : Obligations.RegisterReads :=
  ⟨exec_rdreg, step_rdregWord⟩

end Sys2Proof.Machine
end

section
/-!
The reset state (spec/10_state.md R28): what SRST leaves and what the registers then read.
-/

namespace Sys2Proof.Machine

open Sys2Proof.Claims

theorem exec_srst (s : State) :
    exec .srst s = .next { toBlock := resetBlock, port := .response { e := 0, d := 0x0000 } } := rfl

theorem status_resetBlock : status resetBlock = 0x0000 := by
  decide

/-- After reset every register but CRC and BLK reads zero. -/
theorem reg_resetBlock {n : Byte} (h2 : 2 ≤ n.toNat) (h8 : n.toNat ≤ 8) : reg resetBlock n = some 0x0000 := by
  obtain ⟨k, hk2, hk8, rfl⟩ : ∃ k, 2 ≤ k ∧ k ≤ 8 ∧ n = BitVec.ofNat 8 k := ⟨n.toNat, h2, h8, by simp⟩
  interval_cases k <;> rfl

/-- Settles O2: SRST's result and the reset state are the values of R28, and the registers read from them. -/
theorem srstGivesTheResetState : Obligations.SrstGivesTheResetState := by
  refine ⟨exec_srst, isFormatN_of_decodeFields fun _ => rfl, rfl,
    fun x => ⟨Memory.byteAt_nil x, Memory.byteAt_nil x⟩, ?_⟩
  intro s hs
  rw [hs]
  exact ⟨status_resetBlock, rfl, rfl, fun _ => reg_resetBlock⟩

end Sys2Proof.Machine
end

section
/-!
The opcode map as a relation between an opcode and its row (spec/30_encoding.md R46 to R51): which words raise which
error, and that decode and encode are inverse.
-/

namespace Sys2Proof.Machine

open Sys2Proof.Claims

/-! ### The formats -/

/-- Formats N, T and I accept an `ARG` on one condition and raise one error otherwise. -/
theorem ite_ok_eq_error_iff {c : Prop} [Decidable c] {i : Instr} {x y : ErrName} :
    (if c then .ok i else .error y : Except ErrName Instr) = .error x ↔ x = y ∧ ¬c := by
  split_ifs with h <;> simp [h, eq_comm]

@[simp] theorem formatN_eq_error_iff {i : Instr} {arg : Byte} {x : ErrName} :
    formatN i arg = .error x ↔ x = .rsvd ∧ arg ≠ 0x00 :=
  ite_ok_eq_error_iff

@[simp] theorem formatB_ne_error {f : Byte → Instr} {arg : Byte} {x : ErrName} : formatB f arg ≠ .error x :=
  nofun

@[simp] theorem formatT_eq_error_iff {f : Bit → Instr} {arg : Byte} {x : ErrName} :
    formatT f arg = .error x ↔ x = .rsvd ∧ arg.extractLsb' 1 7 ≠ 0 :=
  ite_ok_eq_error_iff

@[simp] theorem formatI_eq_error_iff {f : Byte → Instr} {top : Nat} {arg : Byte} {x : ErrName} :
    formatI f top arg = .error x ↔ x = .range ∧ top < arg.toNat := by
  rw [formatI, ite_ok_eq_error_iff, not_le]

theorem formatI_eq (f : Byte → Instr) (top : Nat) (arg : Byte) :
    formatI f top arg = if top < arg.toNat then .error .range else .ok (f arg) := by
  simp only [formatI, ← not_lt, ite_not]

/-- Every bit of format T comes back from its `ARG` (R48, R51). -/
theorem formatT_argOfBit (f : Bit → Instr) (b : Bit) : formatT f (argOfBit b) = .ok (f b) := by
  have hzero : (argOfBit b).extractLsb' 1 7 = 0 := by revert b; decide
  have hbit : (argOfBit b).extractLsb' 0 1 = b := by revert b; decide
  rw [formatT, if_pos hzero, hbit]

/-! ### The rows of the opcode map -/

theorem decode_append (opc arg : Byte) : decode (opc ++ arg) = decodeFields opc arg :=
  decode_wordOf opc arg

theorem decodeFields_of_notMem {opc : Byte} (h : opc ∉ opcodes) (arg : Byte) :
    decodeFields opc arg = .error .illop := by
  unfold decodeFields
  split
  case h_20 => rfl
  all_goals exact absurd (by decide) h

theorem decodeFields_of_formatN {row : Byte × Instr} (h : row ∈ formatNOps) :
    decodeFields row.1 = formatN row.2 := by
  fin_cases h <;> rfl

/-- The opcodes of format B and their operations (R47, R50). -/
def formatBOps : List (Byte × (Byte → Instr)) :=
  [(0x12, .crcbyte), (0x21, .txdata), (0x25, .blkset), (0x31, .rxbyte)]

theorem decodeFields_of_formatB {row : Byte × (Byte → Instr)} (h : row ∈ formatBOps) :
    decodeFields row.1 = formatB row.2 := by
  simp only [formatBOps, List.mem_cons, List.not_mem_nil, or_false] at h
  obtain rfl | rfl | rfl | rfl := h <;> rfl

/-- The row of an opcode, as the operation or error of each `ARG`. -/
inductive Row : Byte → (Byte → Except ErrName Instr) → Prop where
  | unassigned {opc : Byte} (h : opc ∉ opcodes) : Row opc fun _ => .error .illop
  | formatN {row : Byte × Instr} (h : row ∈ formatNOps) : Row row.1 (formatN row.2)
  | formatB {row : Byte × (Byte → Instr)} (h : row ∈ formatBOps) : Row row.1 (formatB row.2)
  | crcbit : Row 0x11 (formatT .crcbit)
  | rdreg : Row 0x01 (formatI .rdreg topRegister)
  | rxpay : Row 0x32 (formatI .rxpay topPayloadIndex)

/-- Each of the nineteen opcodes is of format N, of format B, CRCBIT, RDREG or RXPAY. -/
theorem opcodes_by_format : ∀ opc ∈ opcodes,
    opc ∈ formatNOpcodes ∨ opc ∈ formatBOps.map Prod.fst ∨ opc = 0x11 ∨ opc = 0x01 ∨ opc = 0x32 := by
  decide

/-- The decoder reads every opcode by its row (R50, R51). -/
theorem row_decodeFields (opc : Byte) : Row opc (decodeFields opc) := by
  by_cases h : opc ∈ opcodes
  · obtain hN | hB | rfl | rfl | rfl := opcodes_by_format opc h
    · obtain ⟨row, hrow, rfl⟩ := List.mem_map.1 hN
      exact decodeFields_of_formatN hrow ▸ .formatN hrow
    · obtain ⟨row, hrow, rfl⟩ := List.mem_map.1 hB
      exact decodeFields_of_formatB hrow ▸ .formatB hrow
    · exact .crcbit
    · exact .rdreg
    · exact .rxpay
  · exact funext (decodeFields_of_notMem h) ▸ .unassigned h

theorem formatNOps_spec : ∀ row ∈ formatNOps,
    row.1 ∈ opcodes ∧ row.1 ∈ formatNOpcodes ∧ row.1 ≠ 0x11#8 ∧ row.1 ≠ 0x01#8 ∧ row.1 ≠ 0x32#8 := by
  decide

theorem formatBOps_spec : ∀ opc ∈ formatBOps.map Prod.fst,
    opc ∈ opcodes ∧ opc ∉ formatNOpcodes ∧ opc ≠ 0x11#8 ∧ opc ≠ 0x01#8 ∧ opc ≠ 0x32#8 := by
  decide

theorem unassigned_spec {opc : Byte} (h : opc ∉ opcodes) :
    opc ∉ formatNOpcodes ∧ opc ≠ 0x11#8 ∧ opc ≠ 0x01#8 ∧ opc ≠ 0x32#8 := by
  have hsub : formatNOpcodes ⊆ opcodes := by decide
  exact ⟨fun hN => h (hsub hN), (ne_of_mem_of_not_mem (by decide) h).symm, (ne_of_mem_of_not_mem (by decide) h).symm,
    (ne_of_mem_of_not_mem (by decide) h).symm⟩

/-- Which words raise an error at decode: E_ILLOP where no operation is assigned, E_RSVD for a nonzero reserved bit, E_RANGE
for an index above its top; no word raises another one (R51, R52). -/
def DecodeRaises (opc arg : Byte) : ErrName → Prop
  | .illop => opc ∉ opcodes
  | .rsvd => (opc ∈ formatNOpcodes ∧ arg ≠ 0x00) ∨ (opc = 0x11 ∧ arg.extractLsb' 1 7 ≠ 0)
  | .range => (opc = 0x01 ∧ 8 < arg.toNat) ∨ (opc = 0x32 ∧ 127 < arg.toNat)
  | .seq | .txfull | .txempty | .rxfull => False

theorem Row.eq_error_iff {opc : Byte} {f : Byte → Except ErrName Instr} (h : Row opc f) {arg : Byte} {x : ErrName} :
    f arg = .error x ↔ DecodeRaises opc arg x := by
  cases h with
  | unassigned h =>
    obtain ⟨hN, hT, hR, hP⟩ := unassigned_spec h
    cases x <;> simp [DecodeRaises, h, hN, hT, hR, hP]
  | formatN h =>
    obtain ⟨hmem, hN, hT, hR, hP⟩ := formatNOps_spec _ h
    cases x <;> simp [DecodeRaises, hmem, hN, hT, hR, hP]
  | formatB h =>
    obtain ⟨hmem, hN, hT, hR, hP⟩ := formatBOps_spec _ (List.mem_map_of_mem h)
    cases x <;> simp [DecodeRaises, hmem, hN, hT, hR, hP]
  | crcbit =>
    have hmem : 0x11#8 ∈ opcodes ∧ 0x11#8 ∉ formatNOpcodes := by decide
    cases x <;> simp [DecodeRaises, hmem]
  | rdreg =>
    have hmem : 0x01#8 ∈ opcodes ∧ 0x01#8 ∉ formatNOpcodes := by decide
    cases x <;> simp [DecodeRaises, hmem, topRegister]
  | rxpay =>
    have hmem : 0x32#8 ∈ opcodes ∧ 0x32#8 ∉ formatNOpcodes := by decide
    cases x <;> simp [DecodeRaises, hmem, topPayloadIndex]

theorem decode_eq_error_iff {opc arg : Byte} {x : ErrName} :
    decode (opc ++ arg) = .error x ↔ DecodeRaises opc arg x := by
  rw [decode_append, (row_decodeFields opc).eq_error_iff]

/-- Decode raises no other error than these three (R51). -/
theorem decode_error_cases {w : Word} {x : ErrName} (h : decode w = .error x) :
    x = .illop ∨ x = .rsvd ∨ x = .range := by
  have hx : DecodeRaises (opcOf w) (argOf w) x := (row_decodeFields _).eq_error_iff.1 h
  cases x with
  | illop => exact .inl rfl
  | rsvd => exact .inr (.inl rfl)
  | range => exact .inr (.inr rfl)
  | seq | txfull | txempty | rxfull => exact hx.elim

/-! ### Encode -/

/-- An encoded operation decodes to itself; the word of an ill-formed one has its index out of range (R51, log 10). -/
theorem decode_encode (i : Instr) : decode (encode i) = if wellFormed i then .ok i else .error .range := by
  cases i with
  | rdreg n => simp [encode, decode_wordOf, decodeFields, formatI, wellFormed]
  | rxpay k => simp [encode, decode_wordOf, decodeFields, formatI, wellFormed]
  | crcbit b => exact (decode_wordOf 0x11 _).trans (formatT_argOfBit .crcbit b)
  | _ => exact decode_wordOf _ _

theorem decode_eq_ok_iff {w : Word} {i : Instr} : decode w = .ok i ↔ wellFormed i = true ∧ encode i = w := by
  constructor
  · intro h
    have hw := encode_of_decode h
    rw [← hw, decode_encode] at h
    split_ifs at h with hwf
    exact ⟨hwf, hw⟩
  · rintro ⟨hwf, rfl⟩
    rw [decode_encode, if_pos hwf]

/-- Settles O6, row by row of the opcode map, and by encoding what was decoded. -/
theorem decodeFollowsTheOpcodeMap : Obligations.DecodeFollowsTheOpcodeMap := by
  refine ⟨?_, ?_, ?_, ?_, ?_, ?_, fun w i => decode_eq_ok_iff⟩
  · intro opc arg h
    rw [decode_append, decodeFields_of_notMem h]
  · intro row arg h
    rw [decode_append, decodeFields_of_formatN h, formatN]
  · exact decode_append 0x11
  · exact fun arg => (decode_append 0x01 arg).trans (formatI_eq .rdreg topRegister arg)
  · exact fun arg => (decode_append 0x32 arg).trans (formatI_eq .rxpay topPayloadIndex arg)
  · exact fun arg => ⟨decode_append 0x12 arg, decode_append 0x21 arg, decode_append 0x25 arg, decode_append 0x31 arg⟩

end Sys2Proof.Machine
end

section
/-!
How many of the 65536 words raise which error (spec/30_encoding.md R52), counted format by format.
-/

namespace Sys2Proof.Machine

open Sys2Proof.Claims

/-! ### The `ARG` values of one opcode -/

/-- How many of the 256 `ARG` values satisfy `q`. -/
def countArgs (q : Byte → Bool) : Nat := (List.range 256).countP fun x => q (BitVec.ofNat 8 x)

theorem countWords_eq_sum (p : Except ErrName Instr → Bool) :
    countWords p = ((List.range 256).map fun x => countArgs (p ∘ decodeFields (BitVec.ofNat 8 x))).sum := by
  simp only [countWords, countArgs, List.countP_eq_length_filter, decode_append, Function.comp_apply]

theorem countArgs_const (a : Bool) : countArgs (fun _ => a) = 256 * a.toNat := by
  cases a <;> simp [countArgs]

theorem countArgs_not (q : Byte → Bool) : countArgs (fun arg => !q arg) = 256 - countArgs q := by
  have h := List.length_eq_countP_add_countP (fun x => q (BitVec.ofNat 8 x)) (l := List.range 256)
  simp only [List.length_range, decide_not, Bool.decide_eq_true] at h
  exact (Nat.sub_eq_of_eq_add' h).symm

theorem countArgs_cond (c : Byte → Bool) (a b : Bool) :
    countArgs (fun arg => bif c arg then a else b) = countArgs c * a.toNat + (256 - countArgs c) * b.toNat := by
  have hle : countArgs c ≤ 256 := List.countP_le_length.trans_eq List.length_range
  cases a <;> cases b
  · simp [countArgs_const]
  · simp [countArgs_not]
  · simp
  · simp [countArgs_const, hle]

/-! ### Counting by results -/

/-- How many of the 256 words of an opcode are counted, given whether the legal words (`ok`) and the words of each error
are. -/
def opcodeCount (illop rsvd range ok : Bool) (opc : Byte) : Nat :=
  if opc ∉ opcodes then 256 * illop.toNat
  else if opc ∈ formatNOpcodes then 1 * ok.toNat + 255 * rsvd.toNat
  else if opc = 0x11#8 then 2 * ok.toNat + 254 * rsvd.toNat
  else if opc = 0x01#8 then 9 * ok.toNat + 247 * range.toNat
  else if opc = 0x32#8 then 128 * ok.toNat + 128 * range.toNat
  else 256 * ok.toNat

theorem sum_opcodeCount : ∀ illop rsvd range ok : Bool,
    ((List.range 256).map fun x => opcodeCount illop rsvd range ok (BitVec.ofNat 8 x)).sum =
      60672 * illop.toNat + (3060 + 254) * rsvd.toNat + (247 + 128) * range.toNat + 1175 * ok.toNat := by
  decide +kernel

section

variable {p : Except ErrName Instr → Bool} {k : Bool} (hp : ∀ i, p (.ok i) = k)
include hp

theorem countArgs_ite (c : Byte → Prop) [DecidablePred c] (f : Byte → Instr) (x : ErrName) :
    countArgs (p ∘ fun arg => if c arg then .ok (f arg) else .error x) =
      countArgs (fun arg => decide (c arg)) * k.toNat +
        (256 - countArgs fun arg => decide (c arg)) * (p (.error x)).toNat := by
  rw [← countArgs_cond]
  congr 1
  funext arg
  simp only [Function.comp_apply, apply_ite p, hp, Bool.cond_decide]

theorem Row.countArgs_eq {opc : Byte} {f : Byte → Except ErrName Instr} (h : Row opc f) :
    countArgs (p ∘ f) = opcodeCount (p (.error .illop)) (p (.error .rsvd)) (p (.error .range)) k opc := by
  have hN : (countArgs fun arg => decide (arg = 0x00)) = 1 := by decide +kernel
  have hT : (countArgs fun arg => decide (arg.extractLsb' 1 7 = 0)) = 2 := by decide +kernel
  have hR : (countArgs fun arg => decide (arg.toNat ≤ topRegister)) = 9 := by decide +kernel
  have hP : (countArgs fun arg => decide (arg.toNat ≤ topPayloadIndex)) = 128 := by decide +kernel
  cases h with
  | unassigned h =>
    rw [opcodeCount, if_pos h]
    exact countArgs_const _
  | formatN h =>
    obtain ⟨hmem, hmemN, -⟩ := formatNOps_spec _ h
    rw [opcodeCount, if_neg (not_not.2 hmem), if_pos hmemN]
    exact (countArgs_ite hp _ _ _).trans (by rw [hN])
  | formatB h =>
    obtain ⟨hmem, hmemN, h11, h01, h32⟩ := formatBOps_spec _ (List.mem_map_of_mem h)
    rw [opcodeCount, if_neg (not_not.2 hmem), if_neg hmemN, if_neg h11, if_neg h01, if_neg h32]
    exact (congrArg countArgs (funext fun arg => hp _)).trans (countArgs_const k)
  | crcbit => exact (countArgs_ite hp _ _ _).trans (by rw [hT]; rfl)
  | rdreg => exact (countArgs_ite hp _ _ _).trans (by rw [hR]; rfl)
  | rxpay => exact (countArgs_ite hp _ _ _).trans (by rw [hP]; rfl)

/-- The counts of R52, for any set of results that holds all legal words or none. -/
theorem countWords_eq : countWords p =
    60672 * (p (.error .illop)).toNat + (3060 + 254) * (p (.error .rsvd)).toNat +
      (247 + 128) * (p (.error .range)).toNat + 1175 * k.toNat := by
  simp only [countWords_eq_sum, (row_decodeFields _).countArgs_eq hp, sum_opcodeCount]

end

/-- Settles O8, from the errors and the counts of the rows. -/
theorem reservedWordsAreCounted : Obligations.ReservedWordsAreCounted := by
  refine ⟨?_, countWords_eq (k := false) fun _ => rfl, countWords_eq (k := false) fun _ => rfl,
    countWords_eq (k := false) fun _ => rfl, countWords_eq (k := true) fun _ => rfl, ?_⟩
  · exact fun opc arg => ⟨decode_eq_error_iff, decode_eq_error_iff, decode_eq_error_iff⟩
  · intro s w x h
    exact ⟨decode_error_cases h, step_present_of_error h s⟩

end Sys2Proof.Machine
end

section
/-!
The response of every operation (spec/30_encoding.md R55).
-/

namespace Sys2Proof.Machine

open Sys2Proof.Claims

/-- The packed response splits into its two fields (R55). -/
theorem packed_fields (r : Response) : r.packed.extractLsb' 16 4 = r.e ∧ r.packed.extractLsb' 0 16 = r.d :=
  ⟨BitVec.extractLsb'_append_eq_left, BitVec.extractLsb'_append_eq_right⟩

/-! ### No operation stops while the counters are in range -/

theorem opRdreg_next (n : Byte) (b : Block) : ∃ br, opRdreg n b = .next br := by
  unfold opRdreg
  split <;> exact ⟨_, rfl⟩

theorem opTxdata_next (d : Byte) {b : Block} (h : b.txcnt.toNat ≤ 128) : ∃ br, opTxdata d b = .next br := by
  unfold opTxdata
  split_ifs with hv hc
  · exact ⟨_, rfl⟩
  · exact ⟨_, rfl⟩
  · have hx : txdataOffset b < 133 := by
      unfold txdataOffset payloadOffset
      omega
    rw [memWrite_of_lt _ _ hx]
    exact ⟨_, rfl⟩

theorem opTxpop_next {b : Block} (h : b.txpos.toNat ≤ 133) : ∃ br, opTxpop b = .next br := by
  unfold opTxpop
  split_ifs with hv hp
  · exact ⟨_, rfl⟩
  · exact ⟨_, rfl⟩
  · have hx : txpopOffset b < 133 := by
      unfold txpopOffset
      bv_omega
    rw [memRead_of_lt _ hx]
    exact ⟨_, rfl⟩

theorem opRxbyte_next (d : Byte) {b : Block} (h : b.rxpos.toNat ≤ 133) : ∃ br, opRxbyte d b = .next br := by
  unfold opRxbyte
  split_ifs with hp
  · exact ⟨_, rfl⟩
  · have hx : rxbyteOffset b < 133 := by
      unfold rxbyteOffset
      bv_omega
    rw [memWrite_of_lt _ _ hx]
    exact ⟨_, rfl⟩

theorem opRxpay_next (k : Byte) (b : Block) : ∃ br, opRxpay k b = .next br := by
  unfold opRxpay
  split_ifs with hk hd
  · exact ⟨_, rfl⟩
  · exact ⟨_, rfl⟩
  · have hx : payloadOffset k.toNat < 133 := by
      unfold topPayloadIndex at hk
      unfold payloadOffset
      omega
    rw [memRead_of_lt _ hx]
    exact ⟨_, rfl⟩

theorem operation_next_of_inRange (i : Instr) {s : State} (h : InRange s) : ∃ br, operation i s.toBlock = .next br := by
  obtain ⟨hcnt, hpos, hrx⟩ := h
  cases i with
  | rdreg n => exact opRdreg_next n _
  | txdata d => exact opTxdata_next d hcnt
  | txpop => exact opTxpop_next hpos
  | rxbyte d => exact opRxbyte_next d hrx
  | rxpay k => exact opRxpay_next k _
  | txbuild => exact ⟨_, opTxbuild_eq _⟩
  | _ => exact ⟨_, rfl⟩

theorem exec_next_of_inRange (i : Instr) {s : State} (h : InRange s) : ∃ t, exec i s = .next t := by
  obtain ⟨⟨b, r⟩, hop⟩ := operation_next_of_inRange i h
  exact ⟨_, (exec_eq_operate i s).trans (operate_of_next hop)⟩

/-! ### The data of a response -/

/-- What `i` answers with when it succeeds (R55). -/
def successData (s : State) : Instr → Word
  | .rdreg n => registerView s n.toNat
  | .txpop => (s.txf.byteAt s.txpos.toNat).setWidth 16
  | .rxpay k => (s.rxf.byteAt (3 + k.toNat)).setWidth 16
  | _ => 0x0000

theorem successData_eq_zero {s : State} {i : Instr} (hreg : ∀ n, i ≠ .rdreg n) (hpop : i ≠ .txpop)
    (hpay : ∀ k, i ≠ .rxpay k) : successData s i = 0x0000 := by
  cases i with
  | rdreg n => exact absurd rfl (hreg n)
  | txpop => exact absurd rfl hpop
  | rxpay k => exact absurd rfl (hpay k)
  | _ => rfl

theorem eq_registerView_of_reg {s : State} {n : Byte} {v : Word} (h : reg s.toBlock n = some v) :
    v = registerView s n.toNat := by
  have hn : n.toNat ≤ 8 := by
    by_contra hn
    rw [reg_eq_none _ (not_le.1 hn)] at h
    cases h
  rw [reg_eq_registerView s hn] at h
  exact (Option.some.inj h).symm

/-- An operation answers with an error and no data, or with success and its data. -/
theorem Effect.response {s t : State} {i : Instr} (h : Effect s i t) :
    (∃ x, t.port = .response { e := errCode x, d := 0x0000 }) ∨
      t.port = .response { e := 0, d := successData s i } := by
  cases h with
  | raised _ x => exact .inl ⟨x, rfl⟩
  | rdreg n v hv => exact .inr (by rw [successData, eq_registerView_of_reg hv])
  | _ => exact .inr rfl

theorem step_present_response (w : Word) {s : State} (h : InRange s) :
    ∃ t, step (present w s) = .next t ∧
      ((∃ x, t.port = .response { e := errCode x, d := 0x0000 }) ∨
        ∃ i, decode w = .ok i ∧ t.port = .response { e := 0, d := successData s i }) := by
  cases hd : decode w with
  | ok i =>
    obtain ⟨t, ht⟩ := exec_next_of_inRange i h
    refine ⟨t, (step_present_of_ok hd s).trans ht, ?_⟩
    exact (effect_of_exec ht).response.imp_right fun hp => ⟨i, rfl, hp⟩
  | error x => exact ⟨_, step_present_of_error hd s, .inl ⟨x, rfl⟩⟩

/-- Settles O14, from the response of each operation. -/
theorem everyCommandIsAnswered : Obligations.EveryCommandIsAnswered := by
  refine ⟨fun w s h => ?_, packed_fields⟩
  obtain ⟨t, ht, ⟨x, hp⟩ | ⟨i, hd, hp⟩⟩ := step_present_response w h
  · exact ⟨t, _, ht, hp, fun _ => rfl, fun he => absurd he (errCode_ne_zero x)⟩
  · refine ⟨t, _, ht, hp, fun he => absurd rfl he, fun _ => ⟨i, hd, ?_, ?_, ?_, successData_eq_zero⟩⟩
    · rintro n rfl
      rfl
    · rintro rfl
      rfl
    · rintro k rfl
      rfl

end Sys2Proof.Machine
end

section
/-!
The CRC-16 generator: one update bit by bit (spec/40_crc.md R66) and the operations on the CRC register, whose effect is
that of `Block.setCrc` alone (R65, R70, R71).
-/

namespace Sys2Proof.Machine

open Sys2Proof.Claims

/-! ### One update, bit by bit -/

theorem shiftIn_getLsbD (c : Word) (b : Bit) {i : Nat} (hi : i < 16) :
    ((c <<< 1) ||| b.setWidth 16).getLsbD i = if i = 0 then b.getLsbD 0 else c.getLsbD (i - 1) := by
  rw [BitVec.getLsbD_or, BitVec.getLsbD_shiftLeft, BitVec.getLsbD_setWidth]
  cases i with
  | zero => simp
  | succ k => simp [hi]

/-- The bit shifted out selects the XOR with the polynomial constant, in every bit position (R66). -/
theorem crcUpdate_getLsbD (c : Word) (b : Bit) {i : Nat} (hi : i < 16) :
    (crcUpdate c b).getLsbD i =
      ((if i = 0 then b.getLsbD 0 else c.getLsbD (i - 1)) ^^ (c.getLsbD 15 && Config.poly.getLsbD i)) := by
  rw [← shiftIn_getLsbD c b hi, crcUpdate]
  cases c.getLsbD 15 with
  | true => simp
  | false => simp

/-- Settles O19. Bit 0 of the polynomial constant is set, so the bit shifted out always reaches bit 0. -/
theorem crcUpdateBits : Obligations.CrcUpdateBits := by
  refine ⟨fun c b i hi => crcUpdate_getLsbD c b hi, fun c b => ?_⟩
  have poly_bit0 : Config.poly.getLsbD 0 = true := by decide
  rw [crcUpdate_getLsbD c b (by decide), if_pos rfl, poly_bit0, Bool.and_true]

/-! ### The operations on CRC -/

/-- An operation that only writes CRC leaves every other register as it is and answers without data. -/
theorem exec_of_setCrc {i : Instr} {s : State} {v : Word}
    (h : operation i s.toBlock = done (s.toBlock.setCrc v)) :
    exec i s = .next (answered { s with crc := v }) :=
  (exec_eq_operate i s).trans (operate_of_next h)

theorem exec_crcclr (s : State) : exec .crcclr s = .next (answered { s with crc := 0x0000 }) :=
  exec_of_setCrc rfl

theorem exec_crcbit (b : Bit) (s : State) :
    exec (.crcbit b) s = .next (answered { s with crc := crcUpdate s.crc b }) :=
  exec_of_setCrc rfl

/-- A row of the opcode map in format T gives the step R48 describes. -/
theorem step_present_of_formatT {opc : Byte} {f : Bit → Instr} (h : ∀ arg, decodeFields opc arg = formatT f arg)
    (s : State) (arg : Byte) :
    step (present (opc ++ arg) s) =
      if arg.extractLsb' 1 7 = 0 then exec (f (arg.extractLsb' 0 1)) s else .next (raised 2 s) := by
  have hd : decode (opc ++ arg) = formatT f arg := (decode_append opc arg).trans (h arg)
  by_cases ha : arg.extractLsb' 1 7 = 0
  · rw [if_pos ha, step_present_of_ok (hd.trans (if_pos ha))]
  · rw [if_neg ha, step_present_of_error (hd.trans (if_neg ha)), errCode]

/-- Settles O20, from CRCCLR's meaning and its row in format N. -/
theorem crcclrClearsCrc : Obligations.CrcclrClearsCrc :=
  ⟨exec_crcclr, isFormatN_of_decodeFields fun _ => rfl⟩

/-- Settles O21, from CRCBIT's meaning and its row in format T. -/
theorem crcbitFeedsOneBit : Obligations.CrcbitFeedsOneBit :=
  ⟨fun s b => exec_crcbit b s, step_present_of_formatT fun _ => rfl⟩

end Sys2Proof.Machine
end

section
/-!
What an operation of the encoder does at the interface (spec/41_encoder.md): a reply of the block carried over, an error
raised by the operation itself, and a row of the opcode map in format B.
-/

namespace Sys2Proof.Machine

open Sys2Proof.Claims

/-! ### Replies at the interface -/

theorem exec_of_reply {i : Instr} {s : State} {b : Block} {r : Response} (h : operation i s.toBlock = .next (b, r)) :
    exec i s = .next { toBlock := b, port := .response r } :=
  (exec_eq_operate i s).trans (operate_of_next h)

theorem exec_of_raise {i : Instr} {s : State} {x : ErrName} (h : operation i s.toBlock = raise x s.toBlock) :
    exec i s = .next (raised (errCode x) s) :=
  exec_of_reply (h.trans (raise_eq x s.toBlock))

/-- A row of the opcode map in format B gives the step R47 describes. -/
theorem isFormatB_of_decodeFields {opc : Byte} {f : Byte → Instr} (h : ∀ arg, decodeFields opc arg = formatB f arg) :
    IsFormatB opc f := fun s arg =>
  step_present_of_ok ((decode_append opc arg).trans (h arg)) s

/-! ### Sequences of answers -/

theorem answers_cons {i : Instr} {is : List Instr} {s t u : State} {r : Response} {ds : List Word}
    (h : exec i s = .next t) (hr : t.port = .response r) (hrest : answers is t = some (ds, u)) :
    answers (i :: is) s = some (r.d :: ds, u) := by
  simp only [answers, h, response_eq_some.2 hr, hrest]

end Sys2Proof.Machine
end

section
/-!
The operations that write registers alone: TXCLR, RXCLR, TXREW and the block number operations (spec/41_encoder.md R76, R80
to R83, spec/42_decoder.md R91).
-/

namespace Sys2Proof.Machine

open Sys2Proof.Claims

theorem exec_txclr (s : State) :
    exec .txclr s = .next (answered { s with txcnt := 0, txpos := 0, txvalid := false }) := rfl

theorem exec_rxclr (s : State) : exec .rxclr s = .next (answered { s with rxpos := 0 }) := rfl

theorem exec_txrew (s : State) : exec .txrew s = .next (answered { s with txpos := 0 }) := rfl

theorem exec_blkset (v : Byte) (s : State) : exec (.blkset v) s = .next (answered { s with blk := v }) := rfl

theorem exec_blknext (s : State) : exec .blknext s = .next (answered { s with blk := s.blk + 1 }) := rfl

theorem exec_blkrst (s : State) : exec .blkrst s = .next (answered { s with blk := 0x01 }) := rfl

/-! ### The flags after a clear -/

theorem extractLsb'_eq_zero {w : Word} {start len : Nat} (h : ∀ i < len, w.getLsbD (start + i) = false) :
    w.extractLsb' start len = 0 := by
  apply BitVec.eq_of_getLsbD_eq
  intro i hi
  rw [BitVec.getLsbD_extractLsb', h i hi, Bool.and_false, BitVec.ofNat_eq_ofNat, BitVec.getLsbD_zero]

theorem status_getLsbD_txvalid (b : Block) : (status b).getLsbD 0 = b.txvalid := (status_flags b).1

theorem status_getLsbD_txDone (b : Block) : (status b).getLsbD 1 = txDone b := (status_flags b).2.1

/-- With no chunk built, TXVALID and TXDONE read 0 (R22). -/
theorem status_txFlags_eq_zero {b : Block} (h : b.txvalid = false) : (status b).extractLsb' 0 2 = 0 := by
  have hdone : txDone b = false := by rw [txDone, h, Bool.false_and]
  apply extractLsb'_eq_zero
  intro i hi
  interval_cases i
  · exact (status_getLsbD_txvalid b).trans h
  · exact (status_getLsbD_txDone b).trans hdone

/-- With no whole chunk received, the five receive flags read 0 (R22, R94): each of them asks for RXDONE. -/
theorem status_rxFlags_eq_zero {b : Block} (h : rxDone b = false) : (status b).extractLsb' 2 5 = 0 := by
  have hsoh : sohOk b = false := by rw [sohOk, h, Bool.false_and]
  have hcmp : cmpOk b = false := by rw [cmpOk, h, Bool.false_and]
  have hcrc : crcOk b = false := by rw [crcOk, h, Bool.false_and]
  have hok : rxOk b = false := by rw [rxOk, hcrc, Bool.and_false]
  obtain ⟨-, -, h2, h3, h4, h5, h6, -⟩ := status_flags b
  apply extractLsb'_eq_zero
  intro i hi
  interval_cases i
  · exact h2.trans h
  · exact h3.trans hsoh
  · exact h4.trans hcmp
  · exact h5.trans hcrc
  · exact h6.trans hok

/-- Settles O31, from the two meanings and the flags they leave. -/
theorem clearsStartANewChunk : Obligations.ClearsStartANewChunk := by
  refine ⟨fun s => ⟨exec_txclr s, exec_rxclr s⟩, fun s t h => ?_, fun s t h => ?_,
    isFormatN_of_decodeFields fun _ => rfl, isFormatN_of_decodeFields fun _ => rfl⟩
  · cases h
    exact status_txFlags_eq_zero rfl
  · cases h
    exact status_rxFlags_eq_zero rfl

/-! ### Block numbers -/

/-- `n` BLKNEXTs add `n` to BLK and touch nothing else of the block. -/
theorem execAll_blknext (n : Nat) (s : State) :
    ∃ t, execAll (List.replicate n .blknext) s = .next t ∧ t.toBlock = { s.toBlock with blk := t.blk } ∧
      t.blk.toNat = (s.blk.toNat + n) % 256 := by
  induction n generalizing s with
  | zero => exact ⟨s, rfl, rfl, (Nat.mod_eq_of_lt s.blk.isLt).symm⟩
  | succ n ih =>
    obtain ⟨t, hrun, hframe, hblk⟩ := ih (answered { s with blk := s.blk + 1 })
    have hone : (answered { s with blk := s.blk + 1 }).blk.toNat = (s.blk.toNat + 1) % 256 := BitVec.toNat_add ..
    refine ⟨t, (execAll_cons (exec_blknext s)).trans hrun, hframe, ?_⟩
    rw [hblk, hone]
    omega

/-- Settles O37, from the three meanings and the run of BLKNEXTs. -/
theorem blockNumberOperations : Obligations.BlockNumberOperations :=
  ⟨fun s v => exec_blkset v s, fun s => ⟨_, exec_blknext s, rfl, BitVec.toNat_add ..⟩, exec_blkrst, execAll_blknext,
    isFormatB_of_decodeFields fun _ => rfl, isFormatN_of_decodeFields fun _ => rfl,
    isFormatN_of_decodeFields fun _ => rfl⟩

end Sys2Proof.Machine
end

section
/-!
TXDATA (spec/41_encoder.md R77): its two errors and the byte it loads.
-/

namespace Sys2Proof.Machine

open Sys2Proof.Claims

theorem exec_txdata_of_built (d : Byte) {s : State} (hv : s.txvalid = true) :
    exec (.txdata d) s = .next (raised 4 s) :=
  exec_of_raise (x := .seq) (by rw [operation, opTxdata, if_pos hv])

theorem exec_txdata_of_full (d : Byte) {s : State} (hv : s.txvalid = false) (hc : s.txcnt.toNat = 128) :
    exec (.txdata d) s = .next (raised 5 s) := by
  have hcnt : s.txcnt = 128#8 := BitVec.eq_of_toNat_eq hc
  exact exec_of_raise (x := .txfull) (by rw [operation, opTxdata, if_neg (by simp [hv]), if_pos hcnt])

theorem exec_txdata (d : Byte) {s : State} (hv : s.txvalid = false) (hc : s.txcnt.toNat < 128) :
    exec (.txdata d) s =
      .next (answered { s with txf := s.txf.write (3 + s.txcnt.toNat) d, txcnt := s.txcnt + 1 }) := by
  have hcnt : s.txcnt ≠ 128#8 := by bv_omega
  have hoff : txdataOffset s.toBlock = 3 + s.txcnt.toNat := rfl
  apply exec_of_reply
  rw [operation, opTxdata, if_neg (by simp [hv]), if_neg hcnt, hoff, memWrite_of_lt _ _ (by omega)]
  rfl

/-- Settles O32, from the three cases of TXDATA and the rules of a buffer write. -/
theorem txdataLoadsOneByte : Obligations.TxdataLoadsOneByte := by
  refine ⟨fun s d => exec_txdata_of_built d, fun s d => exec_txdata_of_full d, fun s d hv hc => ?_,
    isFormatB_of_decodeFields fun _ => rfl⟩
  refine ⟨_, exec_txdata d hv hc, rfl, ?_, Memory.byteAt_write_self .., fun x => Memory.byteAt_write_ne _ _⟩
  rw [answered, BitVec.toNat_add]
  exact Nat.mod_eq_of_lt (by simp; omega)

end Sys2Proof.Machine
end

section
/-!
TXPOP and TXREW (spec/41_encoder.md R79, R80): one pop, a run of pops, and the whole frame popped from TXPOS 0.
-/

namespace Sys2Proof.Machine

open Sys2Proof.Claims

/-! ### One pop -/

theorem exec_txpop_of_unbuilt {s : State} (hv : s.txvalid = false) : exec .txpop s = .next (raised 4 s) :=
  exec_of_raise (x := .seq) (by rw [operation, opTxpop, if_pos (by simp [hv])])

theorem exec_txpop_of_end {s : State} (hv : s.txvalid = true) (hp : s.txpos.toNat = 133) :
    exec .txpop s = .next (raised 6 s) := by
  have hpos : s.txpos = 133#8 := BitVec.eq_of_toNat_eq hp
  exact exec_of_raise (x := .txempty) (by rw [operation, opTxpop, if_neg (by simp [hv]), if_pos hpos])

/-- The state after a successful pop. -/
def popped (s : State) : State :=
  { s with
    txpos := s.txpos + 1
    port := .response { e := 0, d := (s.txf.byteAt s.txpos.toNat).setWidth 16 } }

theorem exec_txpop {s : State} (hv : s.txvalid = true) (hp : s.txpos.toNat < 133) :
    exec .txpop s = .next (popped s) := by
  have hpos : s.txpos ≠ 133#8 := by bv_omega
  have hoff : txpopOffset s.toBlock = s.txpos.toNat := rfl
  apply exec_of_reply
  rw [operation, opTxpop, if_neg (by simp [hv]), if_neg hpos, hoff, memRead_of_lt _ hp]
  rfl

theorem popped_txpos {s : State} (hp : s.txpos.toNat < 133) : (popped s).txpos.toNat = s.txpos.toNat + 1 := by
  rw [popped, BitVec.toNat_add]
  exact Nat.mod_eq_of_lt (by simp; omega)

/-- TXDONE is 1 after a pop exactly when the byte popped was the last one (R22). -/
theorem popped_txDone {s : State} (hv : s.txvalid = true) (hp : s.txpos.toNat < 133) :
    (status (popped s).toBlock).getLsbD 1 = decide (s.txpos.toNat = 132) := by
  have hvalid : (popped s).txvalid = true := hv
  rw [status_getLsbD_txDone, txDone_eq, hvalid, popped_txpos hp, Bool.true_and]
  simp

/-! ### A run of pops -/

/-- `n` pops that stay inside the frame answer its bytes from TXPOS on, and TXPOS counts them. -/
theorem answers_txpop (n : Nat) {s : State} (hv : s.txvalid = true) (hn : s.txpos.toNat + n ≤ 133) :
    ∃ t, answers (List.replicate n .txpop) s =
        some ((List.range' s.txpos.toNat n).map fun x => (s.txf.byteAt x).setWidth 16, t) ∧
      t.toBlock = { s.toBlock with txpos := t.txpos } ∧ t.txpos.toNat = s.txpos.toNat + n := by
  induction n generalizing s with
  | zero => exact ⟨s, rfl, rfl, rfl⟩
  | succ n ih =>
    have hp : s.txpos.toNat < 133 := by omega
    have hpos := popped_txpos hp
    obtain ⟨t, hrun, hframe, hend⟩ := ih (s := popped s) hv (by omega)
    refine ⟨t, ?_, hframe, by omega⟩
    rw [hpos] at hrun
    exact answers_cons (exec_txpop hv hp) rfl hrun

/-- From TXPOS 0 the 133 pops answer the frame in offset order and leave the block as it was but for TXPOS. -/
theorem answers_txpop_frame {s : State} (hv : s.txvalid = true) (hp : s.txpos = 0) :
    ∃ t, answers (List.replicate 133 .txpop) s = some ((frameBytes s.txf).map (BitVec.setWidth 16), t) ∧
      t.toBlock = { s.toBlock with txpos := 133 } := by
  have hzero : s.txpos.toNat = 0 := by rw [hp]; rfl
  obtain ⟨t, hrun, hframe, hend⟩ := answers_txpop 133 hv (by omega)
  have hpos : t.txpos = 133 := BitVec.eq_of_toNat_eq (by rw [hend, hzero]; rfl)
  have hbytes : (frameBytes s.txf).map (BitVec.setWidth 16) =
      (List.range' 0 133).map fun x => (s.txf.byteAt x).setWidth 16 := by
    rw [frameBytes, List.map_map, List.range_eq_range']
    rfl
  rw [hzero] at hrun
  rw [hbytes, ← hpos]
  exact ⟨t, hrun, hframe⟩

/-- Settles O35, from the three cases of TXPOP and the run over the whole frame. -/
theorem txpopAnswersTheNextByte : Obligations.TxpopAnswersTheNextByte := by
  refine ⟨fun s => exec_txpop_of_unbuilt, fun s => exec_txpop_of_end, fun s hv hp => ?_, fun s hv hp => ?_,
    isFormatN_of_decodeFields fun _ => rfl⟩
  · exact ⟨_, exec_txpop hv hp, popped_txpos hp, rfl, popped_txDone hv hp⟩
  · obtain ⟨t, hrun, hframe⟩ := answers_txpop_frame hv hp
    refine ⟨t, hrun, exec_txpop_of_end ?_ ?_⟩
    · rw [hframe]
      exact hv
    · rw [hframe]
      rfl

/-- Settles O36: TXREW puts TXPOS at 0, from where the whole frame is popped. -/
theorem txrewSendsTheSameBytesAgain : Obligations.TxrewSendsTheSameBytesAgain := by
  refine ⟨exec_txrew, fun s t h => ?_, fun s hv => ?_, isFormatN_of_decodeFields fun _ => rfl⟩
  · cases h
    exact (status_getLsbD_txDone _).trans (Bool.and_false _)
  · obtain ⟨t, hrun, hframe⟩ := answers_txpop_frame (s := answered { s with txpos := 0 }) hv rfl
    exact ⟨t, answers_cons (exec_txrew s) rfl hrun, hframe⟩

end Sys2Proof.Machine
end

section
/-!
`build_chunk` byte by byte, and the frame TXBUILD leaves (spec/41_encoder.md R78, R84).
-/

namespace Sys2Proof.Machine

open Sys2Proof.Claims

/-! ### `build_chunk` -/

/-- The two CRC bytes of a payload, high byte first (R33, R84). -/
def trailerOf (payload : List Byte) : List Byte := [highByte (crc16 payload), lowByte (crc16 payload)]

theorem buildChunk_eq (block : Byte) (src : List Byte) :
    buildChunk block src = 0x01 :: block :: complement block :: (padded src ++ trailerOf (padded src)) := rfl

theorem length_buildChunk (block : Byte) {src : List Byte} (h : src.length ≤ 128) :
    (buildChunk block src).length = 133 := by
  simp [buildChunk_eq, length_padded src h, trailerOf]

/-- From offset 3 on a chunk is its payload and its trailer. -/
theorem getElem?_buildChunk (block : Byte) (src : List Byte) (i : Nat) :
    (buildChunk block src)[3 + i]? = (padded src ++ trailerOf (padded src))[i]? := by
  rw [Nat.add_comm]
  rfl

theorem getElem?_buildChunk_payload (block : Byte) {src : List Byte} (h : src.length ≤ 128) {i : Nat} (hi : i < 128) :
    (buildChunk block src)[3 + i]? = some (src.getD i 0xFF) := by
  rw [getElem?_buildChunk, List.getElem?_append_left (by rw [length_padded src h]; exact hi), getElem?_padded src hi]

theorem getElem?_buildChunk_trailer (block : Byte) {src : List Byte} (h : src.length ≤ 128) (k : Nat) :
    (buildChunk block src)[131 + k]? = (trailerOf (padded src))[k]? := by
  rw [show 131 + k = 3 + (128 + k) by omega, getElem?_buildChunk,
    List.getElem?_append_right (by rw [length_padded src h]; omega), length_padded src h, Nat.add_sub_cancel_left]

theorem payload_buildChunk (block : Byte) {src : List Byte} (h : src.length ≤ 128) :
    ((buildChunk block src).drop 3).take 128 = padded src :=
  List.take_left' (length_padded src h)

/-- Source bytes beyond 128 are not the chunk's (R84). -/
theorem padded_take (src : List Byte) : padded (src.take 128) = padded src := by
  have hshort : 128 - min 128 src.length = 128 - src.length := by omega
  simp only [padded, Config.payloadLen, List.take_take, Nat.min_self, List.length_take, hshort]

/-- Settles O34: header, payload and trailer by their offsets. -/
theorem buildChunkLayout : Obligations.BuildChunkLayout := by
  refine ⟨fun block src h => ⟨length_buildChunk block h, rfl, rfl, ⟨_, rfl, (eq_complement_iff _ _).1 rfl⟩,
    fun i => getElem?_buildChunk_payload block h, ?_⟩, fun block src => ?_⟩
  · refine ⟨_, _, getElem?_buildChunk_trailer block h 0, getElem?_buildChunk_trailer block h 1, ?_⟩
    rw [payload_buildChunk block h]
    exact bigEndian_highByte_lowByte _
  · rw [buildChunk_eq, buildChunk_eq, padded_take]

/-! ### The frame TXBUILD leaves -/

theorem exec_txbuild (s : State) : exec .txbuild s =
    .next (answered { s with txf := builtFrame s.txf s.txcnt.toNat s.blk, txvalid := true, txpos := 0 }) :=
  execTxbuild_eq s

theorem byteAt_builtFrame_payload (m : Memory) (cnt : Nat) (blk : Byte) {i : Nat} (hi : i < 128) :
    (builtFrame m cnt blk).byteAt (3 + i) = if cnt ≤ i then 0xFF else m.byteAt (3 + i) := by
  rw [byteAt_builtFrame, if_neg (by omega), if_neg (by omega), if_neg (by omega), if_neg (by omega),
    if_neg (by omega), byteAt_padPayload]
  by_cases hc : cnt ≤ i
  · rw [if_pos hc, if_pos (by omega)]
  · rw [if_neg hc, if_neg (by omega)]

theorem byteAt_builtFrame_beyond (m : Memory) (cnt : Nat) (blk : Byte) {x : Nat} (hx : 132 < x) :
    (builtFrame m cnt blk).byteAt x = m.byteAt x := by
  rw [byteAt_builtFrame, if_neg (by omega), if_neg (by omega), if_neg (by omega), if_neg (by omega),
    if_neg (by omega), byteAt_padPayload, if_neg (by omega)]

theorem byteAt_builtFrame_header (m : Memory) (cnt : Nat) (blk : Byte) :
    (builtFrame m cnt blk).byteAt 0 = 0x01 ∧ (builtFrame m cnt blk).byteAt 1 = blk ∧
      (builtFrame m cnt blk).byteAt 2 = complement blk := by
  simp [byteAt_builtFrame]

/-- The trailer is the CRC of the payload as the frame holds it. -/
theorem byteAt_builtFrame_trailer (m : Memory) (cnt : Nat) (blk : Byte) :
    (builtFrame m cnt blk).byteAt 131 = highByte (crc16 (payloadOf (builtFrame m cnt blk))) ∧
      (builtFrame m cnt blk).byteAt 132 = lowByte (crc16 (payloadOf (builtFrame m cnt blk))) := by
  simp [payloadOf_builtFrame, byteAt_builtFrame]

/-- The payload of the frame is the loaded bytes, padded as R84 pads them. -/
theorem payloadOf_builtFrame_eq_padded (m : Memory) {cnt : Nat} (hc : cnt ≤ 128) (blk : Byte) :
    payloadOf (builtFrame m cnt blk) = padded ((payloadOf m).take cnt) := by
  have hlen : ((payloadOf m).take cnt).length = cnt := by simp [length_payloadOf, hc]
  apply List.ext_getElem?
  intro i
  by_cases hi : i < 128
  · rw [getElem?_payloadOf _ hi, getElem?_padded _ hi, byteAt_builtFrame_payload m cnt blk hi, List.getD,
      List.getElem?_take]
    by_cases hload : i < cnt
    · rw [if_neg (by omega), if_pos hload, getElem?_payloadOf m hi, Option.getD_some]
    · rw [if_pos (by omega), if_neg hload, Option.getD_none]
  · rw [List.getElem?_eq_none (by rw [length_payloadOf]; omega),
      List.getElem?_eq_none (by rw [length_padded _ (by omega)]; omega)]

theorem frameBytes_builtFrame (m : Memory) {cnt : Nat} (hc : cnt ≤ 128) (blk : Byte) :
    frameBytes (builtFrame m cnt blk) = buildChunk blk ((payloadOf m).take cnt) := by
  obtain ⟨h0, h1, h2⟩ := byteAt_builtFrame_header m cnt blk
  obtain ⟨h131, h132⟩ := byteAt_builtFrame_trailer m cnt blk
  rw [frameBytes_eq, h0, h1, h2, h131, h132, payloadOf_builtFrame_eq_padded m hc]
  rfl

/-- The CRC of a payload of pads alone, evaluated in two halves. -/
theorem crc16_padded_nil : crc16 (padded []) = 0xEDA9 := by
  have hfirst : (List.replicate 64 (0xFF : Byte)).foldl crcByte 0x0000 = 0x0EAB := by decide +kernel
  have hsecond : crcFlush ((List.replicate 64 (0xFF : Byte)).foldl crcByte 0x0EAB) = 0xEDA9 := by decide +kernel
  have hpads : padded [] = List.replicate (64 + 64) 0xFF := rfl
  rw [crc16, hpads, foldl_crcByte_replicate, Config.crcInit, hfirst, hsecond]

theorem byteAt_builtFrame_trailer_of_empty (m : Memory) (blk : Byte) :
    (builtFrame m 0 blk).byteAt 131 = 0xED ∧ (builtFrame m 0 blk).byteAt 132 = 0xA9 := by
  obtain ⟨h131, h132⟩ := byteAt_builtFrame_trailer m 0 blk
  rw [h131, h132, payloadOf_builtFrame_eq_padded m (Nat.zero_le _), List.take_zero, crc16_padded_nil]
  decide

/-- Building again keeps the payload, whatever the block number then is: it is padded already. -/
theorem payloadOf_builtFrame_builtFrame (m : Memory) (cnt : Nat) (blk blk' : Byte) :
    payloadOf (builtFrame (builtFrame m cnt blk) cnt blk') = payloadOf (builtFrame m cnt blk) := by
  apply payloadOf_congr
  intro i hi
  rw [byteAt_builtFrame_payload _ cnt blk' hi]
  by_cases hc : cnt ≤ i
  · rw [if_pos hc, byteAt_builtFrame_payload m cnt blk hi, if_pos hc]
  · rw [if_neg hc]

/-- A second build starts from the frame of the first, with the same TXCNT and whatever BLK became between them. -/
theorem txf_of_rebuild {s t u : State} {v : Byte} (ht : exec .txbuild s = .next t)
    (hu : exec .txbuild { t with blk := v } = .next u) :
    t.txf = builtFrame s.txf s.txcnt.toNat s.blk ∧ u.txf = builtFrame t.txf s.txcnt.toNat v := by
  rw [exec_txbuild] at ht hu
  cases ht
  cases hu
  exact ⟨rfl, rfl⟩

/-- Settles O33, from the bytes of the built frame. -/
theorem txbuildWritesTheFrame : Obligations.TxbuildWritesTheFrame := by
  refine ⟨fun s => ?_, fun s t u v ht hu => ?_, isFormatN_of_decodeFields fun _ => rfl⟩
  · obtain ⟨h0, h1, h2⟩ := byteAt_builtFrame_header s.txf s.txcnt.toNat s.blk
    obtain ⟨h131, h132⟩ := byteAt_builtFrame_trailer s.txf s.txcnt.toNat s.blk
    refine ⟨_, exec_txbuild s, rfl, status_getLsbD_txvalid _, status_getLsbD_txDone _, h0, h1, (eq_complement_iff _ _).1 h2,
      fun i => byteAt_builtFrame_payload _ _ _, h131, h132, fun x => byteAt_builtFrame_beyond _ _ _,
      fun hc => frameBytes_builtFrame _ hc _, fun hc => ?_⟩
    have hempty : s.txcnt.toNat = 0 := by rw [hc]; rfl
    rw [answered, hempty]
    exact byteAt_builtFrame_trailer_of_empty _ _
  · obtain ⟨htf, huf⟩ := txf_of_rebuild ht hu
    have hpay : payloadOf u.txf = payloadOf t.txf := by rw [huf, htf, payloadOf_builtFrame_builtFrame]
    obtain ⟨ht131, ht132⟩ := byteAt_builtFrame_trailer s.txf s.txcnt.toNat s.blk
    obtain ⟨hu131, hu132⟩ := byteAt_builtFrame_trailer t.txf s.txcnt.toNat v
    obtain ⟨-, hu1, -⟩ := byteAt_builtFrame_header t.txf s.txcnt.toNat v
    rw [← htf] at ht131 ht132
    rw [← huf] at hu131 hu132 hu1
    rw [hpay] at hu131 hu132
    exact ⟨hpay, hu131.trans ht131.symm, hu132.trans ht132.symm, hu1⟩

end Sys2Proof.Machine
end

section
/-!
RXBYTE (spec/42_decoder.md R92): its error and the byte it stores.
-/

namespace Sys2Proof.Machine

open Sys2Proof.Claims

theorem exec_rxbyte_of_full (d : Byte) {s : State} (hp : s.rxpos.toNat = 133) :
    exec (.rxbyte d) s = .next (raised 7 s) := by
  have hpos : s.rxpos = 133#8 := BitVec.eq_of_toNat_eq hp
  exact exec_of_raise (x := .rxfull) (by rw [operation, opRxbyte, if_pos hpos])

/-- The state after RXBYTE has stored `d` (R92). -/
def received (d : Byte) (s : State) : State :=
  answered { s with rxf := s.rxf.write s.rxpos.toNat d, rxpos := s.rxpos + 1 }

theorem exec_rxbyte (d : Byte) {s : State} (hp : s.rxpos.toNat < 133) : exec (.rxbyte d) s = .next (received d s) := by
  have hpos : s.rxpos ≠ 133#8 := by bv_omega
  apply exec_of_reply
  rw [operation, opRxbyte, if_neg hpos, rxbyteOffset, memWrite_of_lt _ _ hp]
  rfl

theorem received_rxpos (d : Byte) {s : State} (hp : s.rxpos.toNat < 133) :
    (received d s).rxpos.toNat = s.rxpos.toNat + 1 := by
  rw [received, answered, BitVec.toNat_add]
  exact Nat.mod_eq_of_lt (by simp; omega)

/-- RXDONE rises with byte 132, the last of a chunk, and with no earlier one (R92). -/
theorem received_rxDone (d : Byte) {s : State} (hp : s.rxpos.toNat < 133) :
    rxDone (received d s).toBlock = decide (s.rxpos.toNat = 132) := by
  rw [rxDone_eq, received_rxpos d hp, decide_eq_decide]
  omega

theorem status_getLsbD_rxDone (b : Block) : (status b).getLsbD 2 = rxDone b := by
  obtain ⟨-, -, hdone, -⟩ := status_flags b
  exact hdone

/-- Settles O41, from the two cases of RXBYTE and the rules of a buffer write. -/
theorem rxbyteStoresTheByte : Obligations.RxbyteStoresTheByte := by
  refine ⟨fun s d => exec_rxbyte_of_full d, fun s d hp => ?_, isFormatB_of_decodeFields fun _ => rfl⟩
  exact ⟨received d s, exec_rxbyte d hp, rfl, received_rxpos d hp, Memory.byteAt_write_self ..,
    fun x => Memory.byteAt_write_ne _ _, (status_getLsbD_rxDone _).trans (received_rxDone d hp)⟩

end Sys2Proof.Machine
end

section
/-!
RXPAY (spec/42_decoder.md R93): its two errors in their order and the payload byte it answers.
-/

namespace Sys2Proof.Machine

open Sys2Proof.Claims

theorem exec_rxpay_of_range {i : Byte} (hi : 127 < i.toNat) (s : State) :
    exec (.rxpay i) s = .next (raised 3 s) :=
  exec_of_raise (x := .range) (by rw [operation, opRxpay, topPayloadIndex, if_pos hi])

theorem exec_rxpay_of_incomplete {i : Byte} (hi : ¬127 < i.toNat) {s : State} (hp : s.rxpos.toNat ≠ 133) :
    exec (.rxpay i) s = .next (raised 4 s) := by
  have hdone : rxDone s.toBlock = false := (rxDone_eq _).trans (decide_eq_false hp)
  exact exec_of_raise (x := .seq) (by rw [operation, opRxpay, topPayloadIndex, if_neg hi, if_pos (by simp [hdone])])

theorem exec_rxpay_of_complete {i : Byte} (hi : ¬127 < i.toNat) {s : State} (hp : s.rxpos.toNat = 133) :
    exec (.rxpay i) s =
      .next { s with port := .response { e := 0, d := (s.rxf.byteAt (3 + i.toNat)).setWidth 16 } } := by
  have hdone : rxDone s.toBlock = true := (rxDone_eq _).trans (decide_eq_true hp)
  apply exec_of_reply
  rw [operation, opRxpay, topPayloadIndex, if_neg hi, if_neg (by simp [hdone]), payloadOffset,
    memRead_of_lt _ (by omega)]
  rfl

theorem exec_rxpay (s : State) (i : Byte) : exec (.rxpay i) s =
    if 127 < i.toNat then .next (raised 3 s)
    else if s.rxpos.toNat ≠ 133 then .next (raised 4 s)
    else .next { s with port := .response { e := 0, d := (s.rxf.byteAt (3 + i.toNat)).setWidth 16 } } := by
  split_ifs with hi hp
  · exact exec_rxpay_of_range hi s
  · exact exec_rxpay_of_incomplete hi hp
  · exact exec_rxpay_of_complete hi (not_not.1 hp)

/-- The index check of decode and the operation's own agree (log 10). -/
theorem step_rxpayWord (s : State) (arg : Byte) : step (present (0x32#8 ++ arg) s) = exec (.rxpay arg) s := by
  have hd : decode (0x32#8 ++ arg) = formatI .rxpay topPayloadIndex arg := decode_append 0x32 arg
  by_cases h : arg.toNat ≤ 127
  · exact step_present_of_ok (hd.trans (if_pos h)) s
  · rw [step_present_of_error (hd.trans (if_neg h)), exec_rxpay_of_range (not_le.1 h), errCode]

/-- Settles O42, from the three cases of RXPAY and its row of the opcode map. -/
theorem rxpayReadsThePayload : Obligations.RxpayReadsThePayload :=
  ⟨exec_rxpay, step_rxpayWord⟩

end Sys2Proof.Machine
end

section
/-!
The verdict flags (spec/42_decoder.md R94): CMPOK in its equivalent forms, the five flags as bits 6:2 of STATUS, and a
received chunk for each of the eight results of the three checks.
-/

namespace Sys2Proof.Machine

open Sys2Proof.Claims

/-! ### The forms of CMPOK -/

/-- The complement of a block number is its bitwise complement (R85). -/
theorem complement_eq_not (v : Byte) : complement v = ~~~v :=
  BitVec.allOnes_sub_eq_not v

theorem eq_complement_iff_add (v w : Byte) : w = complement v ↔ v.toNat + w.toNat = 255 := by
  rw [eq_complement_iff]
  omega

theorem eq_complement_iff_xor (v w : Byte) : w = complement v ↔ v ^^^ w = 0xFF := by
  rw [complement_eq_not, ← BitVec.xor_allOnes, ← BitVec.xor_right_inj v, ← BitVec.xor_assoc, BitVec.xor_self,
    BitVec.zero_xor]
  rfl

/-- CMPOK tests any condition that says byte 2 is the complement of byte 1. -/
theorem cmpOk_eq_of_iff {b : Block} {p : Prop} [Decidable p]
    (h : b.rxf.byteAt 2 = complement (b.rxf.byteAt 1) ↔ p) : cmpOk b = (rxDone b && decide p) := by
  rw [cmpOk, beq_eq_decide, rxCmp, rxBlk, decide_eq_decide.2 h]

/-! ### The flags in STATUS -/

/-- Bits 6:2 of STATUS are RXOK, CRCOK, CMPOK, SOHOK, RXDONE (R22). -/
theorem status_rxFlags (b : Block) : (status b).extractLsb' 2 5 =
    BitVec.ofBool (rxOk b) ++ BitVec.ofBool (crcOk b) ++ BitVec.ofBool (cmpOk b) ++ BitVec.ofBool (sohOk b) ++
      BitVec.ofBool (rxDone b) := by
  obtain ⟨-, -, hdone, hsoh, hcmp, hcrc, hok, -⟩ := status_flags b
  have hconcat : BitVec.ofBool (rxOk b) ++ BitVec.ofBool (crcOk b) ++ BitVec.ofBool (cmpOk b) ++
      BitVec.ofBool (sohOk b) ++ BitVec.ofBool (rxDone b) =
        ((((BitVec.ofBool (rxOk b)).concat (crcOk b)).concat (cmpOk b)).concat (sohOk b)).concat (rxDone b) := rfl
  apply BitVec.eq_of_getLsbD_eq
  intro i hi
  rw [BitVec.getLsbD_extractLsb', decide_eq_true hi, Bool.true_and, hconcat]
  interval_cases i
  · exact hdone.trans (by simp)
  · exact hsoh.trans (by simp)
  · exact hcmp.trans (by simp)
  · exact hcrc.trans (by simp)
  · exact hok.trans (by simp)

/-! ### The eight combinations -/

theorem crcByte_zero : crcByte 0x0000 0x00 = 0x0000 := by decide

theorem foldl_crcByte_zeros (n : Nat) : (List.replicate n (0x00 : Byte)).foldl crcByte 0x0000 = 0x0000 := by
  induction n with
  | zero => rfl
  | succ n ih => rw [List.replicate_succ, List.foldl_cons, crcByte_zero, ih]

theorem crc16_zeros (n : Nat) : crc16 (List.replicate n 0x00) = 0x0000 := by
  rw [crc16, Config.crcInit, foldl_crcByte_zeros, crcFlush_eq, crcByte_zero, crcByte_zero]

/-- A received chunk of zeros but for the three bytes that settle the checks: the start marker, the complement of block
number 0 and the low byte of the trailer are right exactly where the flag asked for is 1. -/
def verdictFrame (soh cmp crc : Bool) : Memory :=
  ((Memory.write [] 0 (if soh then 0x01 else 0x00)).write 2 (if cmp then 0xFF else 0x00)).write 132
    (if crc then 0x00 else 0x01)

theorem byteAt_verdictFrame (soh cmp crc : Bool) (x : Nat) : (verdictFrame soh cmp crc).byteAt x =
    if x = 132 then if crc then 0x00 else 0x01
    else if x = 2 then if cmp then 0xFF else 0x00
    else if x = 0 then if soh then 0x01 else 0x00
    else 0x00 := by
  simp only [verdictFrame, Memory.byteAt_write, Memory.byteAt_nil]

theorem wf_verdictFrame (soh cmp crc : Bool) : (verdictFrame soh cmp crc).wf = true :=
  Memory.wf_write _ _ _ (Memory.wf_write _ _ _ (Memory.wf_write _ _ _ Memory.wf_nil (by omega)) (by omega)) (by omega)

/-- The payload is 128 zeros, so its CRC is 0. -/
theorem crc16_payloadOf_verdictFrame (soh cmp crc : Bool) : crc16 (payloadOf (verdictFrame soh cmp crc)) = 0x0000 := by
  have hzeros : payloadOf (verdictFrame soh cmp crc) = payloadOf [] := by
    apply payloadOf_congr
    intro i hi
    rw [byteAt_verdictFrame, if_neg (by omega), if_neg (by omega), if_neg (by omega), Memory.byteAt_nil]
  have hnil : payloadOf [] = List.replicate 128 0x00 := by simp [payloadOf, Config.payloadLen]
  rw [hzeros, hnil, crc16_zeros]

/-- The reset state with a whole chunk `m` received. -/
def holding (m : Memory) : State := { State.reset with rxpos := 133, rxf := m }

theorem legal_holding {m : Memory} (h : m.wf = true) : (holding m).Legal where
  txcnt_le := Nat.zero_le 128
  txpos_le := Nat.zero_le 133
  rxpos_le := Nat.le_refl 133
  ecode_le := Nat.zero_le 7
  err_iff := iff_of_true rfl rfl
  txpos_zero _ := rfl
  built hv := nomatch hv
  txf_wf := Memory.wf_nil
  rxf_wf := h

theorem rxDone_holding (m : Memory) : rxDone (holding m).toBlock = true := rfl

section

variable (soh cmp crc : Bool)

theorem sohOk_holding_verdictFrame : sohOk (holding (verdictFrame soh cmp crc)).toBlock = soh := by
  have hbyte : (holding (verdictFrame soh cmp crc)).rxf.byteAt 0 = if soh then 0x01 else 0x00 :=
    byteAt_verdictFrame soh cmp crc 0
  rw [sohOk, rxDone_holding, hbyte]
  cases soh <;> rfl

theorem cmpOk_holding_verdictFrame : cmpOk (holding (verdictFrame soh cmp crc)).toBlock = cmp := by
  have hblk : rxBlk (holding (verdictFrame soh cmp crc)).toBlock = 0x00 := byteAt_verdictFrame soh cmp crc 1
  have hcmp : rxCmp (holding (verdictFrame soh cmp crc)).toBlock = if cmp then 0xFF else 0x00 :=
    byteAt_verdictFrame soh cmp crc 2
  rw [cmpOk, rxDone_holding, hblk, hcmp]
  cases cmp <;> rfl

theorem crcOk_holding_verdictFrame : crcOk (holding (verdictFrame soh cmp crc)).toBlock = crc := by
  have hpay : crc16 (payloadOf (holding (verdictFrame soh cmp crc)).rxf) = 0x0000 :=
    crc16_payloadOf_verdictFrame soh cmp crc
  have htrailer : rxCrc (holding (verdictFrame soh cmp crc)).toBlock = bigEndian 0x00 (if crc then 0x00 else 0x01) :=
    congrArg₂ bigEndian (byteAt_verdictFrame soh cmp crc 131) (byteAt_verdictFrame soh cmp crc 132)
  rw [crcOk, rxDone_holding, hpay, htrailer]
  cases crc <;> rfl

end

/-- Settles O43, from the forms of the flags and the eight received chunks. -/
theorem verdictFlags : Obligations.VerdictFlags := by
  refine ⟨fun s => ?_, fun s h => status_rxFlags_eq_zero ?_, fun a b c => ?_⟩
  · have hnot : s.rxf.byteAt 2 = complement (s.rxf.byteAt 1) ↔ s.rxf.byteAt 2 = ~~~(s.rxf.byteAt 1) := by
      rw [complement_eq_not]
    refine ⟨rxDone_eq s, ?_, cmpOk_eq_of_iff (eq_complement_iff_add _ _), cmpOk_eq_of_iff (eq_complement_iff_xor _ _),
      cmpOk_eq_of_iff hnot, ?_, rfl, status_rxFlags s⟩
    · rw [sohOk_eq, rxDone_eq]
    · rw [crcOk_eq, rxDone_eq]
  · exact (rxDone_eq s).trans (decide_eq_false (by omega))
  · exact ⟨holding (verdictFrame a b c), legal_holding (wf_verdictFrame a b c), rxDone_holding _,
      sohOk_holding_verdictFrame a b c, cmpOk_holding_verdictFrame a b c, crcOk_holding_verdictFrame a b c⟩

end Sys2Proof.Machine
end

section
/-!
NOP and ERRCLR (spec/43_system.md R101, R103): what each leaves of the block, and the error record as STATUS shows it.
-/

namespace Sys2Proof.Machine

open Sys2Proof.Claims

theorem exec_nop (s : State) : exec .nop s = .next (answered s) :=
  exec_of_reply (i := .nop) rfl

/-- Settles O17, from NOP's meaning and its row in format N. -/
theorem nopChangesNothing : Obligations.NopChangesNothing :=
  ⟨exec_nop, isFormatN_of_decodeFields fun _ => rfl⟩

theorem exec_errclr (s : State) : exec .errclr s = .next (answered { s with err := false, ecode := 0 }) :=
  exec_of_reply (i := .errclr) rfl

theorem status_getLsbD_err (b : Block) : (status b).getLsbD 7 = b.err := by
  obtain ⟨-, -, -, -, -, -, -, herr⟩ := status_flags b
  exact herr

/-- With the record clear, ERR (bit 7) and ECODE (bits 11:8) read 0 (R22). -/
theorem status_record_eq_zero {s : State} (h : RecordCleared s) : (status s.toBlock).extractLsb' 7 5 = 0 := by
  obtain ⟨herr, hcode⟩ := h
  apply extractLsb'_eq_zero
  intro i _
  cases i with
  | zero => exact (status_getLsbD_err s.toBlock).trans herr
  | succ j =>
    have hbit : 7 + (j + 1) = 8 + j := by omega
    rw [hbit, status_getLsbD_high, hcode]
    exact BitVec.getLsbD_zero

/-- Settles O18, from ERRCLR's meaning, its row in format N and the record it leaves in STATUS. -/
theorem errclrClearsTheRecord : Obligations.ErrclrClearsTheRecord := by
  refine ⟨exec_errclr, isFormatN_of_decodeFields fun _ => rfl, fun s t h => ?_⟩
  cases (exec_errclr s).symm.trans h
  exact status_record_eq_zero ⟨rfl, rfl⟩

end Sys2Proof.Machine
end

section
/-!
Error entry and the command after it (spec/60_exceptions.md R109): but for RDREG 5, no operation reads the error record,
so after a raise the next command runs as after a NOP.
-/

namespace Sys2Proof.Machine

open Sys2Proof.Claims

/-! ### Operations that do not read the record -/

/-- A reply with the error record of its block put aside. -/
def eraseRecord : Reply → Reply
  | .next (b, r) => .next (clearRecord b, r)
  | .fault x => .fault x
  | .refused x => .refused x

/-- Whatever the record holds, the operation gives the same reply apart from the record. -/
def IgnoresRecord (op : Block → Reply) : Prop :=
  ∀ (b : Block) (e : Bool) (c : Code), eraseRecord (op (b.setRecord e c)) = eraseRecord (op b)

theorem ignoresRecord_raise (x : ErrName) : IgnoresRecord (raise x) := by
  intro b e c
  rw [raise_eq, raise_eq]
  rfl

/-- A check that does not read the record chooses between two operations that ignore it. -/
theorem ignoresRecord_ite {p : Block → Prop} [DecidablePred p] {op op' : Block → Reply}
    (hp : ∀ b e c, p (b.setRecord e c) = p b) (h : IgnoresRecord op) (h' : IgnoresRecord op') :
    IgnoresRecord fun b => if p b then op b else op' b := by
  intro b e c
  by_cases hb : p b
  · simp only [hp, hb, if_true]
    exact h b e c
  · simp only [hp, hb, if_false]
    exact h' b e c

/-! ### The operations, one by one -/

/-- Of the register numbers only 5, STATUS, shows the record (R22, R25). -/
theorem reg_setRecord {n : Byte} (hn : n ≠ 5) (b : Block) (e : Bool) (c : Code) :
    reg (b.setRecord e c) n = reg b n := by
  unfold reg
  split
  case h_6 => exact absurd rfl hn
  all_goals rfl

@[simp] theorem txdataOffset_setRecord (b : Block) (e : Bool) (c : Code) :
    txdataOffset (b.setRecord e c) = txdataOffset b := rfl

@[simp] theorem txpopOffset_setRecord (b : Block) (e : Bool) (c : Code) :
    txpopOffset (b.setRecord e c) = txpopOffset b := rfl

@[simp] theorem rxbyteOffset_setRecord (b : Block) (e : Bool) (c : Code) :
    rxbyteOffset (b.setRecord e c) = rxbyteOffset b := rfl

theorem ignoresRecord_opRdreg {n : Byte} (hn : n ≠ 5) : IgnoresRecord (opRdreg n) := by
  intro b e c
  simp only [opRdreg, reg_setRecord hn]
  cases reg b n with
  | some v => rfl
  | none => exact ignoresRecord_raise .range b e c

theorem ignoresRecord_opTxdata (d : Byte) : IgnoresRecord (opTxdata d) := by
  refine ignoresRecord_ite (fun _ _ _ => rfl) (ignoresRecord_raise .seq) <|
    ignoresRecord_ite (fun _ _ _ => rfl) (ignoresRecord_raise .txfull) fun b e c => ?_
  simp only [Block.setRecord_txf, txdataOffset_setRecord]
  cases memWrite b.txf (txdataOffset b) d <;> rfl

theorem ignoresRecord_opTxbuild : IgnoresRecord opTxbuild := by
  intro b e c
  simp only [opTxbuild_eq, eraseRecord, clearRecord, Block.setRecord]

theorem ignoresRecord_opTxpop : IgnoresRecord opTxpop := by
  refine ignoresRecord_ite (fun _ _ _ => rfl) (ignoresRecord_raise .seq) <|
    ignoresRecord_ite (fun _ _ _ => rfl) (ignoresRecord_raise .txempty) fun b e c => ?_
  simp only [Block.setRecord_txf, txpopOffset_setRecord]
  cases memRead b.txf (txpopOffset b) <;> rfl

theorem ignoresRecord_opRxbyte (d : Byte) : IgnoresRecord (opRxbyte d) := by
  refine ignoresRecord_ite (fun _ _ _ => rfl) (ignoresRecord_raise .rxfull) fun b e c => ?_
  simp only [Block.setRecord_rxf, rxbyteOffset_setRecord]
  cases memWrite b.rxf (rxbyteOffset b) d <;> rfl

theorem ignoresRecord_opRxpay (k : Byte) : IgnoresRecord (opRxpay k) := by
  refine ignoresRecord_ite (fun _ _ _ => rfl) (ignoresRecord_raise .range) <|
    ignoresRecord_ite (fun _ _ _ => rfl) (ignoresRecord_raise .seq) fun b e c => ?_
  simp only [Block.setRecord_rxf]
  cases memRead b.rxf (payloadOffset k.toNat) <;> rfl

/-- Every operation but RDREG 5 ignores the record. -/
theorem ignoresRecord_operation {i : Instr} (hi : i ≠ .rdreg 5) : IgnoresRecord (operation i) := by
  cases i with
  | rdreg n => exact ignoresRecord_opRdreg fun hn => hi (congrArg Instr.rdreg hn)
  | txdata d => exact ignoresRecord_opTxdata d
  | txbuild => exact ignoresRecord_opTxbuild
  | txpop => exact ignoresRecord_opTxpop
  | rxbyte d => exact ignoresRecord_opRxbyte d
  | rxpay k => exact ignoresRecord_opRxpay k
  | _ => exact fun _ _ _ => rfl

theorem ignoresRecord_command {w : Word} (hw : w ≠ 0x0105) : IgnoresRecord (command w) := by
  cases hd : decode w with
  | ok i =>
    have hi : i ≠ .rdreg 5 := by
      rintro rfl
      exact hw (encode_of_decode hd).symm
    rw [command_of_ok hd]
    exact ignoresRecord_operation hi
  | error x =>
    rw [command_of_error hd]
    exact ignoresRecord_raise x

/-! ### The command after a raise -/

theorem withoutRecord_operate (op : Block → Reply) (s : State) :
    withoutRecord (s.operate op) = s.operate fun b => eraseRecord (op b) := by
  rw [State.operate_eq, State.operate_eq]
  rcases op s.toBlock with ⟨b, r⟩ | x | x <;> rfl

/-- Two states whose blocks differ in the record alone step alike on a word that ignores it. -/
theorem withoutRecord_step_of_setRecord {w : Word} (h : IgnoresRecord (command w)) {s t : State} {e : Bool} {c : Code}
    (hb : t.toBlock = s.toBlock.setRecord e c) :
    withoutRecord (step (present w t)) = withoutRecord (step (present w s)) := by
  rw [step_present, step_present, withoutRecord_operate, withoutRecord_operate]
  simp only [State.operate_eq, hb, h s.toBlock e c]

theorem withoutRecord_step_raised {w : Word} (hw : w ≠ 0x0105) (e : Code) (s : State) :
    withoutRecord (step (present w (raised e s))) = withoutRecord (step (present w (answered s))) :=
  withoutRecord_step_of_setRecord (ignoresRecord_command hw) (s := answered s) (e := true)
    (c := if s.err then s.ecode else e) rfl

theorem withoutRecordAndResponse_withoutRecord (o : Host.Outcome State Fault Refusal) :
    withoutRecordAndResponse (withoutRecord o) = withoutRecordAndResponse o := by
  cases o <;> rfl

/-- RDREG 5 reads the record and changes nothing. -/
theorem withoutRecordAndResponse_rdregStatus (s : State) :
    withoutRecordAndResponse (step (present 0x0105 s)) = withoutRecordAndResponse (.next s) := by
  rw [step_present_of_ok (i := .rdreg 5) rfl, exec_rdreg_of_some rfl]
  rfl

theorem withoutRecordAndResponse_step_raised (w : Word) (e : Code) (s : State) :
    withoutRecordAndResponse (step (present w (raised e s))) =
      withoutRecordAndResponse (step (present w (answered s))) := by
  by_cases hw : w = 0x0105
  · rw [hw, withoutRecordAndResponse_rdregStatus, withoutRecordAndResponse_rdregStatus]
    rfl
  · rw [← withoutRecordAndResponse_withoutRecord, withoutRecord_step_raised hw,
      withoutRecordAndResponse_withoutRecord]

/-- Settles O10: error entry is `raise`, and only RDREG 5 reads what it leaves in the record. -/
theorem errorEntry : Obligations.ErrorEntry :=
  ⟨operate_raise_eq_raised, ⟨rfl, rfl, rfl, rfl, rfl, rfl, rfl⟩,
    fun x s w => withoutRecordAndResponse_step_raised w (errCode x) s,
    fun x s _ hw => withoutRecord_step_raised hw (errCode x) s⟩

end Sys2Proof.Machine
end

section
/-!
The order of the errors (spec/60_exceptions.md R110): decode reports E_ILLOP, E_RSVD and E_RANGE, a decoded operation
the error that its state gives rise to.
-/

namespace Sys2Proof.Machine

open Sys2Proof.Claims

/-- The error a well-formed operation meets in the state it acts on, E_SEQ before the buffer errors; 0 if it meets none
(R110). -/
def stateError (s : State) : Instr → Code
  | .txdata _ => if s.txvalid = true then 4 else if s.txcnt = 128 then 5 else 0
  | .txpop => if s.txvalid = false then 4 else if s.txpos = 133 then 6 else 0
  | .rxbyte _ => if s.rxpos = 133 then 7 else 0
  | .rxpay _ => if s.rxpos ≠ 133 then 4 else 0
  | _ => 0

/-! ### The first error of a word -/

theorem decodeRaises_iff {w : Word} {x : ErrName} : DecodeRaises (opcOf w) (argOf w) x ↔ decode w = .error x :=
  (row_decodeFields (opcOf w)).eq_error_iff.symm

theorem firstError_of_error {w : Word} {x : ErrName} (h : decode w = .error x) (s : State) :
    firstError w s = errCode x := by
  have hx := decodeRaises_iff.2 h
  have hne : ∀ y, x ≠ y → ¬DecodeRaises (opcOf w) (argOf w) y := fun y hxy hy =>
    hxy (Except.error.inj (h.symm.trans (decodeRaises_iff.1 hy)))
  obtain rfl | rfl | rfl := decode_error_cases h
  · exact if_pos hx
  · exact (if_neg (hne .illop nofun)).trans (if_pos hx)
  · exact (if_neg (hne .illop nofun)).trans ((if_neg (hne .rsvd nofun)).trans (if_pos hx))

theorem firstError_of_ok {w : Word} {i : Instr} (h : decode w = .ok i) (s : State) :
    firstError w s = stateError s i := by
  have hno : ∀ x, ¬DecodeRaises (opcOf w) (argOf w) x := by
    intro x hx
    cases h.symm.trans (decodeRaises_iff.1 hx)
  have hopc : w.extractLsb' 8 8 = opcOf (encode i) := by rw [encode_of_decode h, opcOf]
  refine (if_neg (hno .illop)).trans ((if_neg (hno .rsvd)).trans ((if_neg (hno .range)).trans ?_))
  rw [hopc]
  -- the opcode of each operation leaves only that operation's own errors in what is left of the chain
  cases i <;> simp [encode, stateError]

/-! ### The error an operation reports -/

/-- The operation completes and answers with this error code. -/
def Reports (i : Instr) (s : State) (e : Code) : Prop :=
  ∃ t d, exec i s = .next t ∧ t.port = .response { e := e, d := d }

theorem reports_txdata (d : Byte) {s : State} (h : InRange s) : Reports (.txdata d) s (stateError s (.txdata d)) := by
  obtain ⟨hcnt, -, -⟩ := h
  rw [stateError]
  split_ifs with hv hc
  · exact ⟨_, _, exec_txdata_of_built d hv, rfl⟩
  · exact ⟨_, _, exec_txdata_of_full d (by simpa using hv) (congrArg BitVec.toNat hc), rfl⟩
  · exact ⟨_, _, exec_txdata d (by simpa using hv) (by bv_omega), rfl⟩

theorem reports_txpop {s : State} (h : InRange s) : Reports .txpop s (stateError s .txpop) := by
  obtain ⟨-, hpos, -⟩ := h
  rw [stateError]
  split_ifs with hv hp
  · exact ⟨_, _, exec_txpop_of_unbuilt hv, rfl⟩
  · exact ⟨_, _, exec_txpop_of_end (by simpa using hv) (congrArg BitVec.toNat hp), rfl⟩
  · exact ⟨_, _, exec_txpop (by simpa using hv) (by bv_omega), rfl⟩

theorem reports_rxbyte (d : Byte) {s : State} (h : InRange s) : Reports (.rxbyte d) s (stateError s (.rxbyte d)) := by
  obtain ⟨-, -, hrx⟩ := h
  rw [stateError]
  split_ifs with hp
  · exact ⟨_, _, exec_rxbyte_of_full d (congrArg BitVec.toNat hp), rfl⟩
  · exact ⟨_, _, exec_rxbyte d (by bv_omega), rfl⟩

theorem reports_rxpay {k : Byte} (hk : k.toNat ≤ 127) (s : State) :
    Reports (.rxpay k) s (stateError s (.rxpay k)) := by
  rw [stateError]
  split_ifs with hp
  · exact ⟨_, _, exec_rxpay_of_incomplete (not_lt.2 hk) (by bv_omega), rfl⟩
  · exact ⟨_, _, exec_rxpay_of_complete (not_lt.2 hk) (congrArg BitVec.toNat (not_not.1 hp)), rfl⟩

/-- A well-formed operation reports the error of its state. -/
theorem reports_stateError {i : Instr} (hi : wellFormed i = true) {s : State} (h : InRange s) :
    Reports i s (stateError s i) := by
  cases i with
  | rdreg n => exact ⟨_, _, (exec_rdreg s n).trans (if_pos (of_decide_eq_true hi)), rfl⟩
  | txdata d => exact reports_txdata d h
  | txbuild => exact ⟨_, _, exec_txbuild s, rfl⟩
  | txpop => exact reports_txpop h
  | rxbyte d => exact reports_rxbyte d h
  | rxpay k => exact reports_rxpay (of_decide_eq_true hi) s
  | _ => exact ⟨_, _, rfl, rfl⟩

/-- Settles O12: a word that does not decode raises its decode error, a decoded operation reports the error of its
state. -/
theorem firstApplicableErrorIsReported : Obligations.FirstApplicableErrorIsReported := by
  intro w s h
  cases hd : decode w with
  | ok i =>
    obtain ⟨hi, -⟩ := decode_eq_ok_iff.1 hd
    rw [firstError_of_ok hd, step_present_of_ok hd]
    exact reports_stateError hi h
  | error x =>
    rw [firstError_of_error hd]
    exact ⟨_, _, step_present_of_error hd s, rfl⟩

end Sys2Proof.Machine
end

section
/-!
The opcode map from the encoder's side (spec/30_encoding.md R50, R51): an operation's word decodes to it, and the match
and mask columns tell the rows apart by the opcode alone.
-/

namespace Sys2Proof.Machine

open Sys2Proof.Claims

/-- Settles O7, the encoder's half of the decoder's inverse. -/
theorem encodeThenDecode : Obligations.EncodeThenDecode := fun _ hi =>
  decode_eq_ok_iff.2 ⟨hi, rfl⟩

/-! ### The match and mask columns -/

/-- Every operation's word is selected by its own row (R50), the per-operation facts put together. -/
theorem rowSelects_encode (i : Instr) : rowSelects (rowOf i) (encode i) = true := by
  cases i with
  | nop => exact Laws.OpcodeMap.nop
  | rdreg n => exact Laws.OpcodeMap.rdreg n
  | errclr => exact Laws.OpcodeMap.errclr
  | srst => exact Laws.OpcodeMap.srst
  | crcclr => exact Laws.OpcodeMap.crcclr
  | crcbit b => exact Laws.OpcodeMap.crcbit b
  | crcbyte d => exact Laws.OpcodeMap.crcbyte d
  | crcflush => exact Laws.OpcodeMap.crcflush
  | txclr => exact Laws.OpcodeMap.txclr
  | txdata d => exact Laws.OpcodeMap.txdata d
  | txbuild => exact Laws.OpcodeMap.txbuild
  | txpop => exact Laws.OpcodeMap.txpop
  | txrew => exact Laws.OpcodeMap.txrew
  | blkset v => exact Laws.OpcodeMap.blkset v
  | blknext => exact Laws.OpcodeMap.blknext
  | blkrst => exact Laws.OpcodeMap.blkrst
  | rxclr => exact Laws.OpcodeMap.rxclr
  | rxbyte d => exact Laws.OpcodeMap.rxbyte d
  | rxpay k => exact Laws.OpcodeMap.rxpay k

/-- The bits of `ARG` that a row compares: all in format N, all but the data bit in format T, none where `ARG` is a
value or an index (R46 to R50). -/
def argMask (opc : Byte) : Byte := if opc ∈ formatNOpcodes then 0xFF else if opc = 0x11 then 0xFE else 0x00

/-- The match and mask columns as the opcode alone gives them. -/
def rowOfOpcode (opc : Byte) : Word × Word := (wordOf opc 0x00, wordOf 0xFF (argMask opc))

theorem rowOf_eq (i : Instr) : rowOf i = rowOfOpcode (opcOf (encode i)) := by
  cases i <;> rw [encode, opcOf_wordOf] <;> rfl

/-- A word that selects a row has the row's opcode: every mask keeps the whole field. -/
theorem opcOf_of_rowSelects {opc : Byte} {w : Word} (h : rowSelects (rowOfOpcode opc) w = true) : opcOf w = opc := by
  have hmatch : w &&& wordOf 0xFF (argMask opc) = wordOf opc 0x00 := of_decide_eq_true h
  calc opcOf w = opcOf w &&& opcOf (wordOf 0xFF (argMask opc)) := by
        rw [opcOf_wordOf]
        exact BitVec.and_allOnes.symm
    _ = opcOf (w &&& wordOf 0xFF (argMask opc)) := by rw [opcOf, opcOf, opcOf, BitVec.extractLsb'_and]
    _ = opc := by rw [hmatch, opcOf_wordOf]

/-- Settles O9: a decoded word is its operation's own, and two rows that it selects are the row of its opcode. -/
theorem rowsNeverOverlap : Obligations.RowsNeverOverlap := by
  refine ⟨fun w i h => ?_, fun w i j hi hj => ?_⟩
  · rw [← encode_of_decode h]
    exact rowSelects_encode i
  · rw [rowOf_eq] at hi hj
    rw [rowOf_eq, rowOf_eq, ← opcOf_of_rowSelects hi, ← opcOf_of_rowSelects hj]

/-! ### Sample words, and the step on a decoded word -/

/-- Settles O5. The decoder is evaluated on each of the eleven words. -/
theorem sampleWordsDecode : Obligations.SampleWordsDecode := by
  unfold Obligations.SampleWordsDecode
  decide

/-- Settles O1: a step on a presented word is `exec` of what it decodes to, or error entry. -/
theorem stepRunsTheDecodedInstruction : Obligations.StepRunsTheDecodedInstruction := by
  intro s w hport
  have hpresent : present w s = s := State.ext_block rfl hport.symm
  refine ⟨fun i hi => ⟨(decode_eq_ok_iff.1 hi).1, ?_⟩, fun x hx => ?_⟩
  · rw [← step_present_of_ok hi, hpresent]
  · rw [← step_present_of_error hx, hpresent]

end Sys2Proof.Machine
end

section
/-!
The invariants of spec/10_state.md R24: what holds at reset and is kept by every effect of an operation is kept by every
step. It is used for the counters, for the buffers' canonical form and for the whole of `State.Legal`.
-/

namespace Sys2Proof.Machine

open Sys2Proof.Claims

/-- A property of the block that reset has and that every effect keeps is kept by every step: raising a decode error is
an effect of any operation. -/
theorem step_keeps {P : State → Prop} (hport : ∀ s, P s → P (s.setPort .quiet)) (hreset : P State.reset)
    (heffect : ∀ {i s t}, Effect s i t → P s → P t) {s t : State} (hs : P s) (h : step s = .next t) : P t := by
  obtain ⟨-, rfl⟩ | ⟨-, rfl⟩ | ⟨-, i, -, -, heff⟩ | ⟨-, x, -, -, hx⟩ := step_cases h
  · exact hport s hs
  · exact hreset
  · exact heffect heff hs
  · exact heffect (effect_of_raise (i := .nop) hx) hs

/-! ### The buffers -/

/-- Both buffers are in canonical form (log 7). -/
def BuffersCanonical (s : State) : Prop := s.txf.wf = true ∧ s.rxf.wf = true

/-- Only TXDATA, TXBUILD, RXBYTE and SRST write a buffer, and they write inside the frame. -/
theorem Effect.buffersCanonical {i : Instr} {s t : State} (h : Effect s i t) (hs : BuffersCanonical s) :
    BuffersCanonical t := by
  obtain ⟨htx, hrx⟩ := hs
  cases h with
  | srst => exact ⟨Memory.wf_nil, Memory.wf_nil⟩
  | txdata d _ _ hx => exact ⟨Memory.wf_write _ _ _ htx hx, hrx⟩
  | txbuild => exact ⟨wf_builtFrame _ _ _ htx, hrx⟩
  | rxbyte d _ hx => exact ⟨htx, Memory.wf_write _ _ _ hrx hx⟩
  | _ => exact ⟨htx, hrx⟩

/-- Settles O53, the step rule for the two buffers. -/
theorem buffersStayCanonical : Obligations.BuffersStayCanonical := fun _ _ htx hrx =>
  step_keeps (P := BuffersCanonical) (fun _ hs => hs) ⟨Memory.wf_nil, Memory.wf_nil⟩ Effect.buffersCanonical ⟨htx, hrx⟩

/-! ### The counters -/

/-- A counter below its top is counted up to it at most. -/
theorem toNat_succ_le {v top : Byte} (h : v.toNat ≤ top.toNat) (hne : v ≠ top) : (v + 1).toNat ≤ top.toNat := by
  bv_omega

/-- The operations that count test for the top of their counter (R77, R79, R92). -/
theorem Effect.inRange {i : Instr} {s t : State} (h : Effect s i t) (hs : InRange s) : InRange t := by
  obtain ⟨hcnt, hpos, hrx⟩ := hs
  cases h with
  | srst => exact ⟨Nat.zero_le _, Nat.zero_le _, Nat.zero_le _⟩
  | txclr => exact ⟨Nat.zero_le _, Nat.zero_le _, hrx⟩
  | txdata d _ hc _ => exact ⟨toNat_succ_le (top := 128#8) hcnt hc, hpos, hrx⟩
  | txbuild => exact ⟨hcnt, Nat.zero_le _, hrx⟩
  | txpop _ hp _ => exact ⟨hcnt, toNat_succ_le (top := 133#8) hpos hp, hrx⟩
  | txrew => exact ⟨hcnt, Nat.zero_le _, hrx⟩
  | rxclr => exact ⟨hcnt, hpos, Nat.zero_le _⟩
  | rxbyte d hp _ => exact ⟨hcnt, hpos, toNat_succ_le (top := 133#8) hrx hp⟩
  | _ => exact ⟨hcnt, hpos, hrx⟩

theorem State.Legal.inRange {s : State} (h : s.Legal) : InRange s :=
  ⟨h.txcnt_le, h.txpos_le, h.rxpos_le⟩

/-! ### The error record -/

/-- `ECODE` names an error, and is 0 exactly while `ERR` is (R21, R24). -/
def RecordLegal (s : State) : Prop := s.ecode.toNat ≤ 7 ∧ (s.err = false ↔ s.ecode = 0)

theorem recordLegal_raised {s : State} (x : ErrName) (hs : RecordLegal s) :
    RecordLegal (Claims.raised (errCode x) s) := by
  obtain ⟨hle, hiff⟩ := hs
  refine ⟨?_, raised_err_iff x hiff⟩
  rw [Claims.raised]
  split_ifs
  · exact hle
  · exact errCode_le x

theorem Effect.recordLegal {i : Instr} {s t : State} (h : Effect s i t) (hs : RecordLegal s) : RecordLegal t := by
  obtain ⟨hc, -⟩ | ⟨hk, -⟩ | ⟨x, rfl⟩ := h.record
  · exact ⟨by rw [hc.2]; exact Nat.zero_le 7, hc.err_iff⟩
  · exact ⟨by rw [hk.2]; exact hs.1, hk.err_iff hs.2⟩
  · exact recordLegal_raised x hs

/-! ### The built chunk -/

/-- TXPOS is 0 without a chunk, and a chunk that is built has the parts R24 names. -/
def ChunkLegal (s : State) : Prop :=
  (s.txvalid = false → s.txpos = 0) ∧ (s.txvalid = true → BuiltChunk s.txf s.txcnt.toNat)

/-- What TXBUILD leaves is a built chunk, whatever the buffer held. -/
theorem builtChunk_builtFrame (m : Memory) (cnt : Nat) (blk : Byte) : BuiltChunk (builtFrame m cnt blk) cnt := by
  obtain ⟨h0, h1, h2⟩ := byteAt_builtFrame_header m cnt blk
  obtain ⟨h131, h132⟩ := byteAt_builtFrame_trailer m cnt blk
  refine ⟨h0, ?_, fun i hcnt hi => ?_, ?_⟩
  · rw [h2, h1, complement]
  · rw [byteAt_builtFrame_payload m cnt blk (by omega), if_pos hcnt]
  · rw [h131, h132]
    exact bigEndian_highByte_lowByte _

/-- A chunk begins with TXBUILD and ends with TXCLR or SRST; no other operation writes the buffer or TXCNT while it
stands (R86). -/
theorem Effect.chunkLegal {i : Instr} {s t : State} (h : Effect s i t) (hs : ChunkLegal s) : ChunkLegal t := by
  obtain ⟨hzero, hbuilt⟩ := hs
  have unbuilt : ∀ {m : Memory} {cnt : Nat}, false = true → BuiltChunk m cnt := fun h => nomatch h
  cases h with
  | srst => exact ⟨fun _ => rfl, unbuilt⟩
  | txclr => exact ⟨fun _ => rfl, unbuilt⟩
  | txdata d hv _ _ => exact ⟨hzero, fun hv' => Bool.noConfusion (hv.symm.trans hv')⟩
  | txbuild => exact ⟨fun _ => rfl, fun _ => builtChunk_builtFrame _ _ _⟩
  | txpop hv _ _ => exact ⟨fun hv' => Bool.noConfusion (hv.symm.trans hv'), hbuilt⟩
  | txrew => exact ⟨fun _ => rfl, hbuilt⟩
  | _ => exact ⟨hzero, hbuilt⟩

/-! ### Legal states -/

theorem legal_iff {s : State} :
    s.Legal ↔ InRange s ∧ RecordLegal s ∧ ChunkLegal s ∧ BuffersCanonical s := by
  constructor
  · intro h
    exact ⟨h.inRange, ⟨h.ecode_le, h.err_iff⟩, ⟨h.txpos_zero, h.built⟩, h.txf_wf, h.rxf_wf⟩
  · rintro ⟨⟨hcnt, hpos, hrx⟩, ⟨hle, hiff⟩, ⟨hzero, hbuilt⟩, htx, hrx'⟩
    exact ⟨hcnt, hpos, hrx, hle, hiff, hzero, hbuilt, htx, hrx'⟩

theorem Effect.legal {i : Instr} {s t : State} (h : Effect s i t) (hs : s.Legal) : t.Legal := by
  obtain ⟨hrange, hrecord, hchunk, hbuffers⟩ := legal_iff.1 hs
  exact legal_iff.2 ⟨h.inRange hrange, h.recordLegal hrecord, h.chunkLegal hchunk, h.buffersCanonical hbuffers⟩

/-- Settles O50: the reset state is one whose receive buffer is empty and whose record is clear. -/
theorem resetStateIsLegal : Obligations.ResetStateIsLegal where
  txcnt_le := Nat.zero_le 128
  txpos_le := Nat.zero_le 133
  rxpos_le := Nat.zero_le 133
  ecode_le := Nat.zero_le 7
  err_iff := iff_of_true rfl rfl
  txpos_zero _ := rfl
  built hv := nomatch hv
  txf_wf := Memory.wf_nil
  rxf_wf := Memory.wf_nil

theorem legal_setPort {s : State} (p : Port) (hs : s.Legal) : (s.setPort p).Legal := by
  have hparts := legal_iff.1 hs
  exact legal_iff.2 hparts

/-- Settles O51: the counters, the record, the chunk and the buffers are kept by every effect, hence by every step. -/
theorem legalStateIsKept : Obligations.LegalStateIsKept := fun _ _ =>
  step_keeps (fun _ => legal_setPort .quiet) resetStateIsLegal Effect.legal

theorem step_of_noInput {s : State} (hp : s.port = .quiet ∨ ∃ r, s.port = .response r) :
    step s = .next (s.setPort .quiet) := by
  obtain hq | ⟨r, hr⟩ := hp
  · rw [step, hq, idle]
  · rw [step, hr, idle]

/-- Settles O52: with the counters in range no operation stops, and the other inputs never do. -/
theorem legalStateNeverStops : Obligations.LegalStateNeverStops := by
  intro s hs
  cases hp : s.port with
  | quiet => exact ⟨_, step_of_noInput (.inl hp)⟩
  | response r => exact ⟨_, step_of_noInput (.inr ⟨r, hp⟩)⟩
  | reset => exact ⟨State.reset, by rw [step, hp]; rfl⟩
  | command w =>
    obtain ⟨t, ht, -⟩ := step_present_response w hs.inRange
    have hpresent : present w s = s := State.ext_block rfl hp.symm
    exact ⟨t, hpresent ▸ ht⟩

end Sys2Proof.Machine
end

section
/-!
The whole machine: precise errors (spec/60_exceptions.md R109), the port and command streams (spec/10_state.md R26), the
inputs that are no command (spec/70_reset_and_hazards.md R123, R125), and accesses beyond the frame (log 6).
-/

namespace Sys2Proof.Machine

open Sys2Proof.Claims

/-! ### Precise errors -/

/-- An operation raises an error, or it succeeds. -/
theorem Effect.raised_or_succeeded {i : Instr} {s t : State} (h : Effect s i t) :
    (∃ x, t = Claims.raised (errCode x) s) ∨ Succeeded t := by
  cases h with
  | raised _ x => exact .inl ⟨x, rfl⟩
  | _ => exact .inr ⟨_, rfl⟩

theorem step_present_raised_or_succeeded {w : Word} {s t : State} (h : step (present w s) = .next t) :
    (∃ x, t = raised (errCode x) s) ∨ Succeeded t := by
  cases hd : decode w with
  | ok i =>
    rw [step_present_of_ok hd] at h
    exact (effect_of_exec h).raised_or_succeeded
  | error x =>
    rw [step_present_of_error hd] at h
    cases h
    exact .inl ⟨x, rfl⟩

/-- Settles O13: a nonzero code is never a success, so it comes from error entry. -/
theorem errorsArePrecise : Obligations.ErrorsArePrecise := by
  intro w s t r h hport he
  obtain ⟨x, rfl⟩ | ⟨d, hd⟩ := step_present_raised_or_succeeded h
  · cases hport
    exact ⟨rfl, rfl⟩
  · cases hd.symm.trans hport
    exact absurd rfl he

/-! ### The port -/

/-- An operation carried over gives exactly the block and the response that the block's own function gives. -/
theorem operate_eq_next_iff (op : Block → Reply) (s t : State) :
    s.operate op = .next t ↔ ∃ r, op s.toBlock = .next (t.toBlock, r) ∧ t.port = .response r := by
  constructor
  · intro h
    obtain ⟨b, r, hop, rfl⟩ := operate_eq_next h
    exact ⟨r, hop, rfl⟩
  · rintro ⟨r, hop, hport⟩
    rw [operate_of_next hop, ← hport]

/-- Settles O54: `exec` and a step on a word are operations carried over, and carrying over reads the block alone. -/
theorem portIsNoStateOfTheBlock : Obligations.PortIsNoStateOfTheBlock := by
  refine ⟨fun i s p => ?_, exec_eq_operate, step_present, operate_eq_next_iff⟩
  rw [exec_eq_operate, exec_eq_operate, State.operate_eq, State.operate_eq]

/-! ### Command streams -/

/-- With the counters in range a word is answered and leaves them in range. -/
theorem command_next_of_inRange (w : Word) {s : State} (h : InRange s) :
    ∃ t r, command w s.toBlock = .next (t.toBlock, r) ∧ InRange t := by
  obtain ⟨t, ht, -⟩ := step_present_response w h
  obtain ⟨r, hop, -⟩ := (operate_eq_next_iff (command w) s t).1 ((step_present w s).symm.trans ht)
  refine ⟨t, r, hop, ?_⟩
  cases hd : decode w with
  | ok i =>
    rw [step_present_of_ok hd] at ht
    exact (effect_of_exec ht).inRange h
  | error x =>
    rw [step_present_of_error hd] at ht
    cases ht
    exact h

/-- Settles O55, by induction on the stream: the first word acts on the block itself, the later ones on what it
leaves. -/
theorem commandStreamIsAnsweredInOrder : Obligations.CommandStreamIsAnsweredInOrder := by
  intro ws
  induction ws with
  | nil => exact fun s _ => ⟨s.toBlock, [], rfl, rfl, fun k w r hw => by simp at hw⟩
  | cons w later ih =>
    intro s hs
    obtain ⟨t, r, hfirst, ht⟩ := command_next_of_inRange w hs
    obtain ⟨b, rs, hrun, hlen, horder⟩ := ih t ht
    refine ⟨b, r :: rs, commands_cons hfirst hrun, by simp [hlen], fun k w' r' hw' hr' => ?_⟩
    cases k with
    | zero =>
      cases hw'
      cases hr'
      exact ⟨s.toBlock, t.toBlock, rfl, hfirst⟩
    | succ k =>
      obtain ⟨before, after, htake, hlast⟩ := horder k w' r' hw' hr'
      exact ⟨before, after, commands_cons hfirst htake, hlast⟩

/-! ### Inputs that are no command -/

/-- Settles O3: both leave the reset block. -/
theorem hardwareResetMatchesSrst : Obligations.HardwareResetMatchesSrst := by
  intro s hp
  exact ⟨State.reset, _, by rw [step, hp]; rfl, exec_srst s, rfl, rfl⟩

/-- Settles O4: without input the block waits, and from reset, where the counters are in range, every word is
answered. -/
theorem blockWaitsWithoutInput : Obligations.BlockWaitsWithoutInput := by
  refine ⟨fun s => step_of_noInput, fun i _ => ?_⟩
  obtain ⟨t, ht, ⟨x, hp⟩ | ⟨_, -, hp⟩⟩ := step_present_response (encode i) resetStateIsLegal.inRange
  · exact ⟨t, _, ht, hp⟩
  · exact ⟨t, _, ht, hp⟩

/-! ### Accesses beyond the frame (log 6) -/

theorem exec_of_fault {i : Instr} {s : State} {x : Fault} (h : operation i s.toBlock = .fault x) :
    exec i s = .fault x :=
  (exec_eq_operate i s).trans (operate_of_fault h)

theorem memRead_eq_none (m : Memory) {x : Nat} (h : 133 ≤ x) : memRead m x = none :=
  if_neg (not_lt.2 h)

theorem memWrite_eq_none (m : Memory) {x : Nat} (v : Byte) (h : 133 ≤ x) : memWrite m x v = none :=
  if_neg (not_lt.2 h)

/-- TXDATA writes wherever its offset exists, also with TXCNT 129. -/
theorem exec_txdata_of_offset (d : Byte) {s : State} (hv : s.txvalid = false) (hc : s.txcnt.toNat ≠ 128)
    (hx : 3 + s.txcnt.toNat < 133) :
    exec (.txdata d) s =
      .next (answered { s with txf := s.txf.write (3 + s.txcnt.toNat) d, txcnt := s.txcnt + 1 }) := by
  have hcnt : s.txcnt ≠ 128#8 := by bv_omega
  have hoff : txdataOffset s.toBlock = 3 + s.txcnt.toNat := rfl
  apply exec_of_reply
  rw [operation, opTxdata, if_neg (by simp [hv]), if_neg hcnt, hoff, memWrite_of_lt _ _ hx]
  rfl

theorem exec_txdata_of_beyond (d : Byte) {s : State} (hv : s.txvalid = false) (hx : 130 ≤ s.txcnt.toNat) :
    exec (.txdata d) s = .fault .txfOffset := by
  have hcnt : s.txcnt ≠ 128#8 := by bv_omega
  have hoff : txdataOffset s.toBlock = 3 + s.txcnt.toNat := rfl
  apply exec_of_fault
  rw [operation, opTxdata, if_neg (by simp [hv]), if_neg hcnt, hoff, memWrite_eq_none _ _ (by omega)]

theorem exec_txpop_of_beyond {s : State} (hv : s.txvalid = true) (hp : 133 < s.txpos.toNat) :
    exec .txpop s = .fault .txfOffset := by
  have hpos : s.txpos ≠ 133#8 := by bv_omega
  apply exec_of_fault
  rw [operation, opTxpop, if_neg (by simp [hv]), if_neg hpos, txpopOffset, memRead_eq_none _ (by omega)]

theorem exec_rxbyte_of_beyond (d : Byte) {s : State} (hp : 133 < s.rxpos.toNat) :
    exec (.rxbyte d) s = .fault .rxfOffset := by
  have hpos : s.rxpos ≠ 133#8 := by bv_omega
  apply exec_of_fault
  rw [operation, opRxbyte, if_neg hpos, rxbyteOffset, memWrite_eq_none _ _ (by omega)]

/-- Settles O49: TXCNT 129 is the one count beyond the range whose offset exists. -/
theorem accessBeyondTheFrameFaults : Obligations.AccessBeyondTheFrameFaults := by
  refine ⟨fun s d hv hc => ?_, fun s d => exec_txdata_of_beyond d, fun s => exec_txpop_of_beyond,
    fun s d => exec_rxbyte_of_beyond d⟩
  have hrun := exec_txdata_of_offset d hv (by omega) (by omega)
  have hnext : s.txcnt + 1 = 130 := by bv_omega
  rw [hc, hnext] at hrun
  exact ⟨_, hrun, rfl, Memory.byteAt_write_self .., fun x => Memory.byteAt_write_ne _ _⟩

end Sys2Proof.Machine
end

section
/-!
What an operation leaves unchanged: the column "written by" of spec/10_state.md R10, one lemma for each piece of state,
and the independence of the three groups (spec/20_memory.md R44).
-/

namespace Sys2Proof.Machine

open Sys2Proof.Claims

/-! ### The writers of each piece of state -/

section

variable {i : Instr} {s t : State} (h : Effect s i t) (hsrst : i ≠ .srst)
include h hsrst

theorem Effect.crc_eq (hgroup : group i ≠ 1) : t.crc = s.crc := by
  cases h with
  | srst => exact absurd rfl hsrst
  | crcclr | crcbit | crcbyte | crcflush => exact absurd rfl hgroup
  | _ => rfl

theorem Effect.blk_eq (hset : ∀ v, i ≠ .blkset v) (hnext : i ≠ .blknext) (hrst : i ≠ .blkrst) : t.blk = s.blk := by
  cases h with
  | srst => exact absurd rfl hsrst
  | blkset v => exact absurd rfl (hset v)
  | blknext => exact absurd rfl hnext
  | blkrst => exact absurd rfl hrst
  | _ => rfl

theorem Effect.txcnt_eq (hclr : i ≠ .txclr) (hdata : ∀ d, i ≠ .txdata d) : t.txcnt = s.txcnt := by
  cases h with
  | srst => exact absurd rfl hsrst
  | txclr => exact absurd rfl hclr
  | txdata d => exact absurd rfl (hdata d)
  | _ => rfl

theorem Effect.txpos_eq (hclr : i ≠ .txclr) (hbuild : i ≠ .txbuild) (hpop : i ≠ .txpop) (hrew : i ≠ .txrew) :
    t.txpos = s.txpos := by
  cases h with
  | srst => exact absurd rfl hsrst
  | txclr => exact absurd rfl hclr
  | txbuild => exact absurd rfl hbuild
  | txpop => exact absurd rfl hpop
  | txrew => exact absurd rfl hrew
  | _ => rfl

theorem Effect.txvalid_eq (hclr : i ≠ .txclr) (hbuild : i ≠ .txbuild) : t.txvalid = s.txvalid := by
  cases h with
  | srst => exact absurd rfl hsrst
  | txclr => exact absurd rfl hclr
  | txbuild => exact absurd rfl hbuild
  | _ => rfl

theorem Effect.txf_eq (hdata : ∀ d, i ≠ .txdata d) (hbuild : i ≠ .txbuild) : t.txf = s.txf := by
  cases h with
  | srst => exact absurd rfl hsrst
  | txdata d => exact absurd rfl (hdata d)
  | txbuild => exact absurd rfl hbuild
  | _ => rfl

theorem Effect.rxpos_eq (hclr : i ≠ .rxclr) (hbyte : ∀ d, i ≠ .rxbyte d) : t.rxpos = s.rxpos := by
  cases h with
  | srst => exact absurd rfl hsrst
  | rxclr => exact absurd rfl hclr
  | rxbyte d => exact absurd rfl (hbyte d)
  | _ => rfl

theorem Effect.rxf_eq (hbyte : ∀ d, i ≠ .rxbyte d) : t.rxf = s.rxf := by
  cases h with
  | srst => exact absurd rfl hsrst
  | rxbyte d => exact absurd rfl (hbyte d)
  | _ => rfl

theorem Effect.recordKept (hclr : i ≠ .errclr) (hok : Succeeded t) : RecordKept s t := by
  obtain ⟨-, hi⟩ | ⟨hk, -⟩ | ⟨x, rfl⟩ := h.record
  · exact absurd hi (not_or.2 ⟨hclr, hsrst⟩)
  · exact hk
  · obtain ⟨d, hd⟩ := hok
    cases x <;> cases hd

end

/-- Settles O47, the writers of each piece of state put together. -/
theorem onlyTheListedWriters : Obligations.OnlyTheListedWriters := by
  intro i s t h hsrst
  have heff := effect_of_exec h
  refine ⟨heff.crc_eq hsrst, heff.blk_eq hsrst, heff.txcnt_eq hsrst, heff.txpos_eq hsrst, heff.txvalid_eq hsrst, ?_,
    heff.rxpos_eq hsrst, ?_, heff.recordKept hsrst⟩
  · intro hdata hbuild
    have htxf := heff.txf_eq hsrst hdata hbuild
    exact ⟨htxf, fun x => by rw [htxf]⟩
  · intro hbyte
    have hrxf := heff.rxf_eq hsrst hbyte
    exact ⟨hrxf, fun x => by rw [hrxf]⟩

/-! ### A built chunk is frozen -/

/-- While a chunk is built TXDATA only raises E_SEQ (R77), so it writes neither the buffer nor TXCNT. -/
theorem txdata_frozen {d : Byte} {s t : State} (h : exec (.txdata d) s = .next t) (hv : s.txvalid = true) :
    t.txf = s.txf ∧ t.txcnt = s.txcnt := by
  rw [exec_txdata_of_built d hv] at h
  cases h
  exact ⟨rfl, rfl⟩

/-- Settles O38: the listed writers, less TXDATA. -/
theorem builtChunkIsFrozen : Obligations.BuiltChunkIsFrozen := by
  intro i s t h hv
  have heff := effect_of_exec h
  refine ⟨fun hbuild hsrst => ?_, fun hclr hsrst => ?_⟩
  · by_cases hdata : ∃ d, i = .txdata d
    · obtain ⟨d, rfl⟩ := hdata
      obtain ⟨htxf, hcnt⟩ := txdata_frozen h hv
      exact ⟨htxf, fun _ => hcnt⟩
    · have hno : ∀ d, i ≠ .txdata d := not_exists.1 hdata
      exact ⟨heff.txf_eq hsrst hno hbuild, fun hclr => heff.txcnt_eq hsrst hclr hno⟩
  · by_cases hbuild : i = .txbuild
    · subst hbuild
      rw [exec_txbuild] at h
      cases h
      rfl
    · exact (heff.txvalid_eq hsrst hclr hbuild).trans hv

/-! ### The groups are independent -/

/-- The block `c` with the state of one group taken from `b`: CRC for the CRC generator (R65), the five pieces of the
encoder (R75), the two of the decoder (R90). -/
def graft : Nat → Block → Block → Block
  | 1, b, c => { c with crc := b.crc }
  | 2, b, c => { c with blk := b.blk, txcnt := b.txcnt, txpos := b.txpos, txvalid := b.txvalid, txf := b.txf }
  | 3, b, c => { c with rxpos := b.rxpos, rxf := b.rxf }
  | _, _, c => c

/-- The same for a whole state, with the port of the state whose group is taken. -/
def graftState (g : Nat) (s : State) (c : Block) : State := { toBlock := graft g s.toBlock c, port := s.port }

theorem not_succeeded_raised (e : ErrName) (s : State) : ¬Succeeded (raised (errCode e) s) := by
  rintro ⟨d, hd⟩
  cases e <;> cases hd

/-- A success of an operation of the three groups writes its own group's state alone. -/
theorem toBlock_eq_graft {i : Instr} {s u : State} (h : exec i s = .next u) (hok : Succeeded u) (hg : group i ≠ 0) :
    u.toBlock = graft (group i) u.toBlock s.toBlock := by
  cases effect_of_exec h with
  | raised _ x => exact absurd hok (not_succeeded_raised x s)
  | nop | rdreg | errclr | srst => exact absurd rfl hg
  | _ => rfl

/-- A success reads its own group's state alone: with that state put into any other block, the same happens there. -/
theorem Effect.graft {i : Instr} {s u : State} (h : Effect s i u) (hok : Succeeded u) (hg : group i ≠ 0) (c : Block) :
    Effect (graftState (group i) s c) i (graftState (group i) u c) := by
  cases h with
  | raised _ x => exact absurd hok (not_succeeded_raised x s)
  | nop | rdreg | errclr | srst => exact absurd rfl hg
  | crcclr => exact .crcclr
  | crcbit b => exact .crcbit b
  | crcbyte d => exact .crcbyte d
  | crcflush => exact .crcflush
  | txclr => exact .txclr
  | txdata d hv hc hx => exact .txdata d hv hc hx
  | txbuild => exact .txbuild
  | txpop hv hp hx => exact .txpop hv hp hx
  | txrew => exact .txrew
  | blkset v => exact .blkset v
  | blknext => exact .blknext
  | blkrst => exact .blkrst
  | rxclr => exact .rxclr
  | rxbyte d hp hx => exact .rxbyte d hp hx
  | rxpay k hk hd => exact .rxpay k hk hd

/-- The converse of `effect_of_exec` for successes: the operation does what its effect says. -/
theorem exec_of_effect {i : Instr} {s t : State} (h : Effect s i t) (hok : Succeeded t) : exec i s = .next t := by
  cases h with
  | raised _ x => exact absurd hok (not_succeeded_raised x s)
  | rdreg n v hv => exact exec_rdreg_of_some hv
  | txdata d hv hc hx => exact exec_txdata_of_offset d hv (fun hc' => hc (BitVec.eq_of_toNat_eq hc')) hx
  | txbuild => exact exec_txbuild s
  | txpop hv _ hx => exact exec_txpop hv hx
  | rxbyte d _ hx => exact exec_rxbyte d hx
  | rxpay k hk hd => exact exec_rxpay_of_complete (not_lt.2 hk) (of_decide_eq_true ((rxDone_eq _).symm.trans hd))
  | _ => rfl

/-- An operation that succeeds gives the same response, and the same state of its group, from any state that differs in
the other groups alone. -/
theorem exec_graft {i : Instr} {s u : State} (h : exec i s = .next u) (hok : Succeeded u) (hg : group i ≠ 0)
    (c : Block) :
    exec i (graftState (group i) s c) = .next (graftState (group i) u c) :=
  exec_of_effect ((effect_of_exec h).graft hok hg c) hok

theorem group_le (i : Instr) : group i ≤ 3 := by
  cases i <;> simp [group]

/-- Different groups share no piece of state: grafting one leaves the other as it was, and grafts of both commute. -/
theorem graft_comm {g g' : Nat} (hle : g ≤ 3) (hle' : g' ≤ 3) (h : g ≠ 0) (h' : g' ≠ 0) (hne : g ≠ g')
    (b b' c : Block) :
    graft g c (graft g' b' c) = graft g' b' c ∧ graft g b (graft g' b' c) = graft g' b' (graft g b c) := by
  obtain ⟨rfl, rfl⟩ | ⟨rfl, rfl⟩ | ⟨rfl, rfl⟩ | ⟨rfl, rfl⟩ | ⟨rfl, rfl⟩ | ⟨rfl, rfl⟩ :
      (g = 1 ∧ g' = 2) ∨ (g = 1 ∧ g' = 3) ∨ (g = 2 ∧ g' = 1) ∨ (g = 2 ∧ g' = 3) ∨ (g = 3 ∧ g' = 1) ∨
        (g = 3 ∧ g' = 2) := by omega
  all_goals exact ⟨rfl, rfl⟩

theorem exec_eq_of_toBlock_eq (i : Instr) {s t : State} (h : s.toBlock = t.toBlock) : exec i s = exec i t := by
  rw [exec_eq_operate, exec_eq_operate, State.operate_eq, State.operate_eq, h]

/-- After a success of another group an operation does what it does alone, to the block that the other one left. -/
theorem exec_after_other_group {i j : Instr} {s u v : State} (hi : group i ≠ 0) (hj : group j ≠ 0)
    (hne : group i ≠ group j) (hu : exec i s = .next u) (huok : Succeeded u) (hv : exec j s = .next v)
    (hvok : Succeeded v) : exec j u = .next (graftState (group j) v u.toBlock) := by
  have hself := toBlock_eq_graft hu huok hi
  obtain ⟨hkeeps, -⟩ := graft_comm (group_le j) (group_le i) hj hi hne.symm s.toBlock u.toBlock s.toBlock
  have hsame : u.toBlock = (graftState (group j) s u.toBlock).toBlock := by
    rw [graftState, hself, hkeeps]
  rw [exec_eq_of_toBlock_eq j hsame]
  exact exec_graft hv hvok hj u.toBlock

/-- Settles O48: either order puts both groups' results into the block they started from. -/
theorem groupsDoNotDisturbOneAnother : Obligations.GroupsDoNotDisturbOneAnother := by
  intro i j s u v hi hj hne hu huok hv hvok
  refine ⟨_, _, exec_after_other_group hi hj hne hu huok hv hvok,
    exec_after_other_group hj hi hne.symm hv hvok hu huok, ?_, rfl, rfl⟩
  have huself := toBlock_eq_graft hu huok hi
  have hvself := toBlock_eq_graft hv hvok hj
  obtain ⟨-, hcomm⟩ := graft_comm (group_le j) (group_le i) hj hi hne.symm v.toBlock u.toBlock s.toBlock
  calc graft (group j) v.toBlock u.toBlock
      = graft (group j) v.toBlock (graft (group i) u.toBlock s.toBlock) := by rw [← huself]
    _ = graft (group i) u.toBlock (graft (group j) v.toBlock s.toBlock) := hcomm
    _ = graft (group i) u.toBlock v.toBlock := by rw [← hvself]

end Sys2Proof.Machine
end

section
/-!
CRCBYTE, CRCFLUSH and the sequences of the CRC generator (spec/40_crc.md R67 to R69, R72 to R74).
-/

namespace Sys2Proof.Machine

open Sys2Proof.Claims

/-! ### Runs of operations that write CRC alone -/

/-- A run of operations each of which changes CRC by `g` and nothing else folds `g` over the operands. -/
theorem execAll_writing_crc {α : Type} {f : α → Instr} {g : Word → α → Word}
    (h : ∀ a s, exec (f a) s = .next (answered { s with crc := g s.crc a })) (as : List α) (s : State) :
    execAll (as.map f) (answered s) = .next (answered { s with crc := as.foldl g s.crc }) := by
  induction as generalizing s with
  | nil => rfl
  | cons a as ih => exact (execAll_cons (h a (answered s))).trans (ih { s with crc := g s.crc a })

theorem exec_crcbyte (d : Byte) (s : State) :
    exec (.crcbyte d) s = .next (answered { s with crc := crcByte s.crc d }) :=
  exec_of_setCrc rfl

theorem exec_crcflush (s : State) : exec .crcflush s = .next (answered { s with crc := crcFlush s.crc }) :=
  exec_of_setCrc rfl

/-- CRCBITs from any state; there is a first one, which sets the response. -/
theorem execAll_crcbit (b : Bit) (bs : List Bit) (s : State) :
    execAll ((b :: bs).map .crcbit) s = .next (answered { s with crc := (b :: bs).foldl crcUpdate s.crc }) :=
  (execAll_cons (exec_crcbit b s)).trans
    (execAll_writing_crc exec_crcbit bs { s with crc := crcUpdate s.crc b })

/-- CRCBYTEs likewise. -/
theorem execAll_crcbyte (d : Byte) (ds : List Byte) (s : State) :
    execAll ((d :: ds).map .crcbyte) s = .next (answered { s with crc := (d :: ds).foldl crcByte s.crc }) :=
  (execAll_cons (exec_crcbyte d s)).trans
    (execAll_writing_crc exec_crcbyte ds { s with crc := crcByte s.crc d })

/-! ### CRCBYTE and CRCFLUSH -/

theorem crcByte_eq_eightUpdates (c : Word) (d : Byte) : crcByte c d = eightUpdates c d := rfl

/-- An update that shifts no set bit out only appends its bit (R66). -/
theorem toNat_crcUpdate {c : Word} (b : Bit) (h : c.toNat < 2 ^ 15) : (crcUpdate c b).toNat = 2 * c.toNat + b.toNat := by
  have htop : c.getLsbD 15 = false := Nat.testBit_lt_two_pow h
  have hb := b.isLt
  rw [crcUpdate, if_neg (by rw [htop]; exact Bool.false_ne_true), BitVec.toNat_or, BitVec.toNat_shiftLeft,
    BitVec.toNat_setWidth, Nat.shiftLeft_eq, Nat.mod_eq_of_lt (by omega), Nat.mod_eq_of_lt (by omega), Nat.mul_comm,
    ← Nat.two_pow_add_eq_or_of_lt hb]

theorem toNat_foldl_crcUpdate (bs : List Bit) {c : Word} (h : 2 ^ bs.length * (c.toNat + 1) ≤ 2 ^ 16) :
    (bs.foldl crcUpdate c).toNat = bs.foldl (fun n b => 2 * n + b.toNat) c.toNat := by
  induction bs generalizing c with
  | nil => rfl
  | cons b bs ih =>
    rw [List.length_cons, Nat.pow_succ, Nat.mul_assoc] at h
    have hb := b.isLt
    have hle : 2 * (c.toNat + 1) ≤ 2 ^ 16 := (Nat.le_mul_of_pos_left _ (Nat.two_pow_pos bs.length)).trans h
    have hupdate := toNat_crcUpdate b (c := c) (by omega)
    rw [List.foldl_cons, List.foldl_cons, ih, hupdate]
    rw [hupdate]
    exact (Nat.mul_le_mul_left _ (by omega)).trans h

/-- Into a register with a clear high byte a byte only shifts in (R67). -/
theorem toNat_crcByte {c : Word} (d : Byte) (h : c.toNat < 2 ^ 8) : (crcByte c d).toNat = 2 ^ 8 * c.toNat + d.toNat := by
  have hd := d.isLt
  have hlen : (bitsOf d).length = 8 := rfl
  rw [crcByte, toNat_foldl_crcUpdate _ (by rw [hlen]; omega)]
  simp only [bitsOf, List.map_cons, List.map_nil, List.foldl_cons, List.foldl_nil, BitVec.extractLsb'_toNat,
    Nat.shiftRight_eq_div_pow]
  omega

theorem crcByte_zero_left (d : Byte) : crcByte 0x0000 d = d.setWidth 16 := by
  apply BitVec.eq_of_toNat_eq
  rw [toNat_crcByte d (by decide), BitVec.toNat_setWidth_of_le (by decide)]
  exact Nat.zero_add _

/-- Settles O22, from the meaning of CRCBYTE and the run of the eight CRCBITs. -/
theorem crcbyteIsEightBits : Obligations.CrcbyteIsEightBits :=
  ⟨fun s d => ⟨exec_crcbyte d s, (exec_crcbyte d s).trans (execAll_crcbit _ _ s).symm⟩, crcByte_eq_eightUpdates,
    crcByte_zero_left, isFormatB_of_decodeFields fun _ => rfl⟩

theorem crcFlush_eq_iterate (c : Word) : crcFlush c = (fun c => crcUpdate c 0)^[16] c := rfl

theorem crcFlush_zero : crcFlush 0x0000 = 0x0000 := by
  rw [crcFlush_eq, crcByte_zero, crcByte_zero]

/-- Settles O23, from the meaning of CRCFLUSH and the runs of CRCBITs and CRCBYTEs. -/
theorem crcflushIsSixteenZeroBits : Obligations.CrcflushIsSixteenZeroBits :=
  ⟨fun s => ⟨exec_crcflush s, (exec_crcflush s).trans (execAll_crcbit 0 (List.replicate 15 0) s).symm,
      (exec_crcflush s).trans (execAll_crcbyte 0x00 [0x00] s).symm⟩,
    crcFlush_eq_iterate, crcFlush_zero, isFormatN_of_decodeFields fun _ => rfl⟩

/-- Settles O24: CRCCLR starts from 0, the CRCBYTEs feed the data and CRCFLUSH finishes. -/
theorem crcSequenceComputesCrc16 : Obligations.CrcSequenceComputesCrc16 := by
  intro data s
  refine ⟨?_, rfl, exec_rdreg_of_some rfl⟩
  have hfeed := execAll_writing_crc exec_crcbyte data { s with crc := 0x0000 }
  calc execAll (.crcclr :: data.map .crcbyte ++ [.crcflush]) s
      = execAll (data.map .crcbyte ++ [.crcflush]) (answered { s with crc := 0x0000 }) := execAll_cons (exec_crcclr s)
    _ = execAll [.crcflush] (answered { s with crc := data.foldl crcByte 0x0000 }) := execAll_append hfeed
    _ = .next (answered { s with crc := crc16 data }) := execAll_cons (exec_crcflush _)

end Sys2Proof.Machine
end

section
/-!
The algebra of `crc16` (spec/40_crc.md R63): linearity, zeros in front, the residue, the direct form and single-bit
changes. All of it comes from the linearity of feeding a byte and from what one byte does to a register of zero.
-/

namespace Sys2Proof.Machine

open Sys2Proof.Claims

/-! ### Linearity -/

theorem crcFlush_xor (a b : Word) : crcFlush (a ^^^ b) = crcFlush a ^^^ crcFlush b := by
  have hbyte : ∀ a b : Word, crcByte (a ^^^ b) 0x00 = crcByte a 0x00 ^^^ crcByte b 0x00 := fun a b =>
    crcByte_xor a b 0x00 0x00
  rw [crcFlush_eq, crcFlush_eq, crcFlush_eq, hbyte, hbyte]

theorem foldl_crcByte_xor {as bs : List Byte} (h : as.length = bs.length) (a b : Word) :
    (List.zipWith (fun x y => x ^^^ y) as bs).foldl crcByte (a ^^^ b) = as.foldl crcByte a ^^^ bs.foldl crcByte b := by
  induction as generalizing bs a b with
  | nil => cases bs with
    | nil => rfl
    | cons y ys => cases h
  | cons x xs ih => cases bs with
    | nil => cases h
    | cons y ys =>
      simp only [List.zipWith_cons_cons, List.foldl_cons, crcByte_xor]
      exact ih (Nat.succ.inj h) _ _

/-- Settles O25: both runs start from 0, which is the XOR of 0 and 0. -/
theorem crc16IsLinear : Obligations.Crc16IsLinear := by
  refine ⟨fun a b h => ?_, crc16_zeros⟩
  rw [crc16, crc16, crc16, ← crcFlush_xor, ← foldl_crcByte_xor h]
  rfl

/-- Settles O26: zeros fed from 0 leave 0. -/
theorem leadingZerosAreInvisible : Obligations.LeadingZerosAreInvisible := by
  intro n data
  rw [crc16, crc16, List.foldl_append, Config.crcInit, foldl_crcByte_zeros]

/-! ### The residue -/

/-- Feeding a byte is feeding zeros and adding the byte, by linearity. -/
theorem crcByte_eq_xor (c : Word) (d : Byte) : crcByte c d = crcByte c 0x00 ^^^ d.setWidth 16 := by
  have hsum := crcByte_xor c 0x0000 0x00 d
  rw [crcByte_zero_left] at hsum
  simpa using hsum

/-- A byte shifted in moves up into the high byte with the next one. -/
theorem crcByte_setWidth (d : Byte) : crcByte (d.setWidth 16) 0x00 = d ++ 0x00#8 := by
  have hd : (d.setWidth 16).toNat = d.toNat := BitVec.toNat_setWidth_of_le (by decide)
  apply BitVec.eq_of_toNat_eq
  have hfed := toNat_crcByte (c := d.setWidth 16) 0x00 (hd ▸ d.isLt)
  rw [hfed, hd, BitVec.toNat_append, Nat.shiftLeft_eq, Nat.mul_comm]
  simp

theorem setWidth_eq_append (lo : Byte) : lo.setWidth 16 = 0x00#8 ++ lo := by
  apply BitVec.eq_of_toNat_eq
  rw [BitVec.toNat_setWidth_of_le (by decide), BitVec.toNat_append]
  simp

theorem append_eq_xor (hi lo : Byte) : hi ++ lo = (hi ++ 0x00#8) ^^^ lo.setWidth 16 := by
  rw [setWidth_eq_append]
  exact (BitVec.xor_append.trans (by simp)).symm

/-- Two bytes fed in place of the flush are added to its result, the first one high. -/
theorem crcByte_crcByte_eq_flush (c : Word) (hi lo : Byte) : crcByte (crcByte c hi) lo = crcFlush c ^^^ (hi ++ lo) := by
  have hhi : crcByte (crcByte c hi) 0x00 = crcFlush c ^^^ (hi ++ 0x00#8) := by
    rw [crcByte_eq_xor c hi, crcFlush_eq, ← crcByte_setWidth]
    exact crcByte_xor _ _ 0x00 0x00
  rw [crcByte_eq_xor, hhi, append_eq_xor hi lo, BitVec.xor_assoc]

/-- The bytes of a register's own flush cancel it. -/
theorem crcByte_own_flush (c : Word) : crcByte (crcByte c (highByte (crcFlush c))) (lowByte (crcFlush c)) = 0x0000 := by
  have hbytes : highByte (crcFlush c) ++ lowByte (crcFlush c) = crcFlush c := bigEndian_highByte_lowByte _
  rw [crcByte_crcByte_eq_flush, hbytes]
  exact BitVec.xor_self

/-- Settles O27, for one register and after any data. -/
theorem residueIsZero : Obligations.ResidueIsZero := by
  refine ⟨crcByte_own_flush, fun data => ?_⟩
  rw [List.foldl_append]
  exact crcByte_own_flush (data.foldl crcByte 0x0000)

/-! ### The direct form -/

/-- A shift of the direct form is an update with bit 0. -/
theorem directShift_eq (c : Word) : directShift c = crcUpdate c 0 := by
  rw [directShift, crcUpdate]
  simp [Config.poly]

theorem directByte_eq (c : Word) (d : Byte) : directByte c d = crcByte (c ^^^ (d ++ 0x00#8)) 0x00 := by
  have hshift : directShift = fun c => crcUpdate c 0 := funext directShift_eq
  rw [directByte, hshift]
  rfl

/-- The direct form keeps the flushed register: what it holds is the flush of what the bit by bit form holds. -/
theorem directByte_crcFlush (c : Word) (d : Byte) : directByte (crcFlush c) d = crcFlush (crcByte c d) := by
  have hfed : crcByte (crcByte c d) 0x00 = crcFlush c ^^^ (d ++ 0x00#8) := crcByte_crcByte_eq_flush c d 0x00
  rw [directByte_eq, ← hfed, crcFlush_eq]

theorem foldl_directByte (data : List Byte) (c : Word) :
    data.foldl directByte (crcFlush c) = crcFlush (data.foldl crcByte c) := by
  induction data generalizing c with
  | nil => rfl
  | cons d ds ih => rw [List.foldl_cons, List.foldl_cons, directByte_crcFlush, ih]

/-- Settles O28: the direct form starts from the flush of 0, which is 0. -/
theorem directFormAgrees : Obligations.DirectFormAgrees := by
  intro data
  have h := foldl_directByte data 0x0000
  rwa [crcFlush_zero] at h

/-! ### Single-bit changes -/

/-- An update with bit 0 is zero for a register of zero alone: bit 0 of the result is the bit shifted out, and when that
is 0 the others only move up. -/
theorem eq_zero_of_crcUpdate {c : Word} (h : crcUpdate c 0 = 0) : c = 0 := by
  have htop : c.getLsbD 15 = false := by
    have hbit := crcUpdate_getLsbD c 0 (i := 0) (by decide)
    rw [h] at hbit
    simpa [Config.poly] using hbit.symm
  apply BitVec.eq_of_getLsbD_eq
  intro i hi
  by_cases h15 : i = 15
  · rw [h15, htop]
    rfl
  · have hbit := crcUpdate_getLsbD c 0 (i := i + 1) (by omega)
    rw [h, htop] at hbit
    simpa using hbit.symm

theorem crcUpdate_injective (b : Bit) : Function.Injective fun c => crcUpdate c b := by
  intro x y h
  have hdiff : crcUpdate (x ^^^ y) 0 = 0 := by
    have := crcUpdate_xor x y b b
    rw [BitVec.xor_self] at this
    rw [BitVec.ofNat_eq_ofNat, this]
    exact BitVec.xor_eq_zero_iff.2 h
  exact BitVec.xor_eq_zero_iff.1 (eq_zero_of_crcUpdate hdiff)

/-- Steps that lose nothing of the register lose nothing in a row. -/
theorem foldl_injective {α β : Type} {f : β → α → β} (h : ∀ a, Function.Injective fun c => f c a) (as : List α) :
    Function.Injective fun c => as.foldl f c := by
  induction as with
  | nil => exact fun _ _ h => h
  | cons a as ih => exact fun x y hxy => h a (ih hxy)

theorem crcByte_injective (d : Byte) : Function.Injective fun c => crcByte c d :=
  foldl_injective crcUpdate_injective (bitsOf d)

theorem crcFlush_injective : Function.Injective crcFlush :=
  foldl_injective crcUpdate_injective (List.replicate Config.flushBits 0)

/-- From the same register, different bytes leave different registers. -/
theorem crcByte_right_injective (c : Word) : Function.Injective (crcByte c) := by
  intro d e h
  rw [crcByte_eq_xor, crcByte_eq_xor c e, BitVec.xor_right_inj] at h
  simpa using congrArg (BitVec.setWidth 8) h

theorem crc16_append_cons (before after : List Byte) (d : Byte) : crc16 (before ++ d :: after) =
    crcFlush (after.foldl crcByte (crcByte (before.foldl crcByte 0x0000) d)) := by
  rw [crc16, List.foldl_append, List.foldl_cons, Config.crcInit]

/-- Another byte in one place gives another CRC. -/
theorem crc16_set_ne {data : List Byte} {i : Nat} (hi : i < data.length) {d : Byte} (hd : d ≠ data.getD i 0x00) :
    crc16 (data.set i d) ≠ crc16 data := by
  have hsplit : data = data.take i ++ data.getD i 0x00 :: data.drop (i + 1) := by
    simp [hi]
  have hset : data.set i d = data.take i ++ d :: data.drop (i + 1) := by
    rw [List.set_eq_take_append_cons_drop, if_pos hi]
  intro h
  have hflush := (crc16_append_cons ..).symm.trans
    ((congrArg crc16 hset).symm.trans (h.trans ((congrArg crc16 hsplit).trans (crc16_append_cons ..))))
  exact hd (crcByte_right_injective _ (foldl_injective crcByte_injective _ (crcFlush_injective hflush)))

theorem bit_ne_zero {k : Nat} (hk : k < 8) : 0x01#8 <<< k ≠ 0x00#8 := by
  interval_cases k <;> decide

theorem xor_bit_ne (d : Byte) {k : Nat} (hk : k < 8) : d ^^^ (0x01#8 <<< k) ≠ d := fun h =>
  bit_ne_zero hk ((BitVec.xor_right_inj d).1 (h.trans BitVec.xor_zero.symm))

/-- Settles O29: a flipped bit makes another byte. -/
theorem singleBitChangesCrc16 : Obligations.SingleBitChangesCrc16 := fun _ _ _ hi hk =>
  crc16_set_ne hi (xor_bit_ne _ hk)

end Sys2Proof.Machine
end

section
/-!
`crc16` as a polynomial remainder over GF(2) (spec/40_crc.md R63 (a)). One update is multiplication by `x` and addition
of the incoming bit, less the divisor when a bit is shifted out; in the ring of remainders that is `c x + b`, and bytes,
flush and data follow by the ring laws.
-/

namespace Sys2Proof.Machine

open Sys2Proof.Claims Polynomial

/-! ### Bits as coefficients -/

/-- A bit as a coefficient. -/
def coeffOf (b : Bool) : ZMod 2 := if b then 1 else 0

theorem coeffOf_xor : ∀ a b : Bool, coeffOf (a ^^ b) = coeffOf a + coeffOf b := by
  decide

theorem coeffOf_and : ∀ a b : Bool, coeffOf (a && b) = coeffOf a * coeffOf b := by
  decide

/-- The polynomial of a value: bit `i` is the coefficient of `x^i`. -/
noncomputable def polyOf (n : Nat) (v : BitVec n) : (ZMod 2)[X] :=
  ∑ i ∈ Finset.range n, if v.getLsbD i then X ^ i else 0

theorem coeff_polyOf {n : Nat} (v : BitVec n) (i : Nat) : (polyOf n v).coeff i = coeffOf (v.getLsbD i) := by
  have hterm : ∀ j, (if v.getLsbD j then (X ^ j : (ZMod 2)[X]) else 0).coeff i =
      if j = i then coeffOf (v.getLsbD j) else 0 := by
    intro j
    cases hb : v.getLsbD j <;> simp [coeffOf, coeff_X_pow, eq_comm]
  simp only [polyOf, finsetSum_coeff, hterm, Finset.sum_ite_eq', Finset.mem_range]
  split_ifs with hi
  · rfl
  · rw [BitVec.getLsbD_of_ge v i (not_lt.1 hi)]
    rfl

/-- The divisor of R63 (a). -/
noncomputable def divisorPoly : (ZMod 2)[X] := X ^ 16 + X ^ 12 + X ^ 5 + 1

/-- The polynomial constant is the divisor without its leading term (R66). -/
theorem divisorPoly_eq : divisorPoly = X ^ 16 + polyOf 16 Config.poly := by
  simp [divisorPoly, polyOf, Finset.sum_range_succ, Config.poly]
  ring

theorem degree_polyOf_lt {n : Nat} (v : BitVec n) : (polyOf n v).degree < n := by
  rw [degree_lt_iff_coeff_zero]
  intro i hi
  rw [coeff_polyOf, BitVec.getLsbD_of_ge v i hi]
  rfl

theorem monic_divisorPoly : divisorPoly.Monic := by
  rw [divisorPoly_eq]
  exact monic_X_pow_add (degree_polyOf_lt _)

theorem degree_divisorPoly : divisorPoly.degree = 16 := by
  rw [divisorPoly_eq]
  rw [degree_add_eq_left_of_degree_lt, degree_X_pow]
  · rfl
  · rw [degree_X_pow]
    exact degree_polyOf_lt _

/-! ### One update -/

/-- The coefficients of `c x + b`: every bit one place up, the incoming bit at the bottom. -/
theorem coeff_shiftIn (c : Word) (b : Bit) (i : Nat) : (polyOf 16 c * X + polyOf 1 b).coeff i =
    coeffOf (if i = 0 then b.getLsbD 0 else c.getLsbD (i - 1)) := by
  cases i with
  | zero => simp [coeff_polyOf]
  | succ i =>
    simp [coeff_polyOf, coeffOf]

/-- `c x + b` is the updated register plus, when the top bit was set, the divisor. -/
theorem polyOf_crcUpdate_add (c : Word) (b : Bit) :
    polyOf 16 (crcUpdate c b) + C (coeffOf (c.getLsbD 15)) * divisorPoly = polyOf 16 c * X + polyOf 1 b := by
  ext i
  rw [coeff_shiftIn, coeff_add, coeff_polyOf, coeff_C_mul, divisorPoly_eq, coeff_add, coeff_X_pow, coeff_polyOf]
  by_cases hi : i < 16
  · rw [crcUpdate_getLsbD c b hi, coeffOf_xor, coeffOf_and, if_neg (by omega : i ≠ 16), zero_add, add_assoc,
      CharTwo.add_self_eq_zero, add_zero]
  · rw [BitVec.getLsbD_of_ge _ i (not_lt.1 hi), BitVec.getLsbD_of_ge _ i (not_lt.1 hi), if_neg (by omega : i ≠ 0)]
    by_cases h16 : i = 16
    · subst h16
      simp [coeffOf]
    · rw [BitVec.getLsbD_of_ge c (i - 1) (by omega)]
      simp [coeffOf, h16]

/-! ### The ring of remainders -/

/-- The remainder class of a polynomial. -/
noncomputable def classOf (f : (ZMod 2)[X]) : AdjoinRoot divisorPoly := AdjoinRoot.mk divisorPoly f

/-- A register in the class of `f` is the remainder of `f`: its degree is below 16. -/
theorem polyOf_eq_modByMonic {v : Word} {f : (ZMod 2)[X]} (h : classOf (polyOf 16 v) = classOf f) :
    polyOf 16 v = f %ₘ divisorPoly := by
  have hdvd : divisorPoly ∣ polyOf 16 v - f := AdjoinRoot.mk_eq_mk.1 h
  have hself : polyOf 16 v %ₘ divisorPoly = polyOf 16 v := by
    rw [modByMonic_eq_self_iff monic_divisorPoly, degree_divisorPoly]
    exact degree_polyOf_lt v
  rw [← hself]
  exact modByMonic_eq_of_dvd_sub monic_divisorPoly hdvd

/-- The register holds the remainder of `m`, up to the choice of representative. -/
def Represents (c : Word) (m : (ZMod 2)[X]) : Prop := classOf (polyOf 16 c) = classOf m

theorem represents_crcUpdate {c : Word} {m : (ZMod 2)[X]} (h : Represents c m) (b : Bit) :
    Represents (crcUpdate c b) (m * X + polyOf 1 b) := by
  have hupdate : classOf (polyOf 16 (crcUpdate c b)) = classOf (polyOf 16 c * X + polyOf 1 b) := by
    rw [← polyOf_crcUpdate_add]
    simp [classOf]
  unfold Represents classOf at *
  rw [hupdate, map_add, map_mul, h, map_add, map_mul]

/-- The bits of a byte, most significant first, shift its polynomial in. -/
theorem foldl_bitsOf (m : (ZMod 2)[X]) (d : Byte) :
    (bitsOf d).foldl (fun m b => m * X + polyOf 1 b) m = m * X ^ 8 + polyOf 8 d := by
  have hbit : ∀ k, polyOf 1 (d.extractLsb' k 1) = C (coeffOf (d.getLsbD k)) := by
    intro k
    cases hk : d.getLsbD k <;> simp [polyOf, coeffOf, hk]
  have hbyte : polyOf 8 d = ∑ k ∈ Finset.range 8, C (coeffOf (d.getLsbD k)) * X ^ k := by
    refine Finset.sum_congr rfl fun k _ => ?_
    cases d.getLsbD k <;> simp [coeffOf]
  simp only [bitsOf, List.map_cons, List.map_nil, List.foldl_cons, List.foldl_nil, hbit, hbyte,
    Finset.sum_range_succ, Finset.sum_range_zero]
  ring

theorem represents_crcByte {c : Word} {m : (ZMod 2)[X]} (h : Represents c m) (d : Byte) :
    Represents (crcByte c d) (m * X ^ 8 + polyOf 8 d) := by
  rw [← foldl_bitsOf]
  exact List.foldl_rel h fun b _ _ _ hcm => represents_crcUpdate hcm b

theorem polyOf_zero (n : Nat) : polyOf n 0 = 0 := by
  simp [polyOf]

theorem represents_crcFlush {c : Word} {m : (ZMod 2)[X]} (h : Represents c m) :
    Represents (crcFlush c) (m * X ^ 16) := by
  have hzeros : m * X ^ 16 = (m * X ^ 8 + polyOf 8 0) * X ^ 8 + polyOf 8 0 := by
    rw [polyOf_zero]
    ring
  rw [hzeros, crcFlush_eq]
  exact represents_crcByte (represents_crcByte h 0) 0

/-- The message polynomial of R63 (a): the bits of the bytes, most significant first. -/
noncomputable def messagePoly (data : List Byte) : (ZMod 2)[X] :=
  data.foldl (fun m d => m * X ^ 8 + polyOf 8 d) 0

theorem represents_crc16 (data : List Byte) : Represents (crc16 data) (messagePoly data * X ^ 16) := by
  have hinit : Represents Config.crcInit 0 := congrArg classOf (polyOf_zero 16)
  exact represents_crcFlush (List.foldl_rel hinit fun d _ _ _ hcm => represents_crcByte hcm d)

theorem represents_self (c : Word) : Represents c (polyOf 16 c) := rfl

/-- Settles O30: a register that represents a polynomial is its remainder. -/
theorem crc16IsPolynomialRemainder : Obligations.Crc16IsPolynomialRemainder :=
  ⟨fun c b => polyOf_eq_modByMonic (represents_crcUpdate (represents_self c) b),
    fun data => polyOf_eq_modByMonic (represents_crc16 data)⟩

end Sys2Proof.Machine
end

section
/-!
Bytes stored one after the other: what a run of TXDATA or RXBYTE leaves in a frame buffer (spec/41_encoder.md R77,
spec/42_decoder.md R92), and the sequences TXLOAD and RXFRAME (spec/30_encoding.md R61).
-/

namespace Sys2Proof.Machine

open Sys2Proof.Claims

/-! ### Bytes stored in a row -/

/-- The buffer with `bytes` stored from offset `x` on. -/
def storeBytes : Memory → Nat → List Byte → Memory
  | m, _, [] => m
  | m, x, d :: ds => storeBytes (m.write x d) (x + 1) ds

theorem byteAt_storeBytes_below (bytes : List Byte) {m : Memory} {x y : Nat} (h : y < x) :
    (storeBytes m x bytes).byteAt y = m.byteAt y := by
  induction bytes generalizing m x with
  | nil => rfl
  | cons d ds ih => rw [storeBytes, ih (by omega), Memory.byteAt_write_ne _ _ (by omega)]

theorem byteAt_storeBytes (bytes : List Byte) (m : Memory) (x : Nat) {i : Nat} (hi : i < bytes.length) :
    (storeBytes m x bytes).byteAt (x + i) = bytes[i] := by
  induction bytes generalizing m x i with
  | nil => cases hi
  | cons d ds ih =>
    cases i with
    | zero => exact (byteAt_storeBytes_below ds (by omega)).trans (Memory.byteAt_write_self ..)
    | succ i =>
      have hoff : x + (i + 1) = x + 1 + i := by omega
      rw [storeBytes, hoff]
      exact ih _ _ (Nat.lt_of_succ_lt_succ hi)

/-- A run of operations each of which stores its byte at the next offset, `n` counting the bytes stored so far, stores
its bytes in a row. -/
theorem execAll_storing {f : Byte → Instr} {state : Nat → Memory → State} {base top : Nat}
    (hstep : ∀ d n m, n < top → exec (f d) (state n m) = .next (state (n + 1) (m.write (base + n) d)))
    (bytes : List Byte) (n : Nat) (m : Memory) (h : n + bytes.length ≤ top) :
    execAll (bytes.map f) (state n m) = .next (state (n + bytes.length) (storeBytes m (base + n) bytes)) := by
  induction bytes generalizing n m with
  | nil => rfl
  | cons d ds ih =>
    rw [List.length_cons] at h ⊢
    have hrest := ih (n + 1) (m.write (base + n) d) (by omega)
    rw [Nat.add_assoc n, Nat.add_comm 1] at hrest
    exact (execAll_cons (hstep d n m (by omega))).trans hrest

/-- A counter's value as a number. -/
theorem toNat_count {n : Nat} (h : n ≤ 133) : (BitVec.ofNat 8 n).toNat = n :=
  Nat.mod_eq_of_lt (by omega)

theorem count_succ (n : Nat) : BitVec.ofNat 8 n + 1 = BitVec.ofNat 8 (n + 1) :=
  (BitVec.ofNat_add n 1).symm

/-! ### TXLOAD -/

/-- The state with `n` bytes loaded, the transmit buffer being `m`. -/
def loading (s : State) (n : Nat) (m : Memory) : State :=
  answered { s with txf := m, txcnt := BitVec.ofNat 8 n, txpos := 0, txvalid := false }

theorem exec_txdata_loading (s : State) (d : Byte) (n : Nat) (m : Memory) (h : n < 128) :
    exec (.txdata d) (loading s n m) = .next (loading s (n + 1) (m.write (3 + n) d)) := by
  have hcnt : (loading s n m).txcnt.toNat = n := toNat_count (by omega)
  have hnext : (loading s n m).txcnt + 1 = BitVec.ofNat 8 (n + 1) := count_succ n
  rw [exec_txdata d rfl (by omega), hcnt, hnext]
  rfl

/-- The state with the chunk of `n` bytes built in the buffer `m`, ready to be popped. -/
def built (s : State) (n : Nat) (m : Memory) : State :=
  answered { s with txf := builtFrame m n s.blk, txcnt := BitVec.ofNat 8 n, txpos := 0, txvalid := true }

theorem exec_txbuild_loading (s : State) {n : Nat} (m : Memory) (h : n ≤ 128) :
    exec .txbuild (loading s n m) = .next (built s n m) := by
  have hcnt : (loading s n m).txcnt.toNat = n := toNat_count (by omega)
  rw [exec_txbuild, hcnt]
  rfl

/-- TXCLR, the TXDATAs and TXBUILD in one equation (R61). -/
theorem execAll_txload {data : List Byte} (h : data.length ≤ 128) (s : State) :
    execAll (txload data) s = .next (built s data.length (storeBytes s.txf 3 data)) := by
  have hload := execAll_storing (exec_txdata_loading s) data 0 s.txf (by omega)
  rw [Nat.zero_add] at hload
  calc execAll (txload data) s
      = execAll (data.map Instr.txdata ++ [Instr.txbuild]) (loading s 0 s.txf) := execAll_cons (exec_txclr s)
    _ = execAll [.txbuild] (loading s data.length (storeBytes s.txf 3 data)) := execAll_append hload
    _ = .next (built s data.length (storeBytes s.txf 3 data)) := execAll_cons (exec_txbuild_loading s _ h)

/-- The bytes stored from offset 3 on are the payload they are built from. -/
theorem take_payloadOf_storeBytes {data : List Byte} (h : data.length ≤ 128) (m : Memory) :
    (payloadOf (storeBytes m 3 data)).take data.length = data := by
  apply List.ext_getElem?
  intro i
  rw [List.getElem?_take]
  split_ifs with hi
  · rw [getElem?_payloadOf _ (by omega), byteAt_storeBytes data m 3 hi, List.getElem?_eq_getElem hi]
  · rw [List.getElem?_eq_none (not_lt.1 hi)]

theorem frameBytes_built {data : List Byte} (h : data.length ≤ 128) (s : State) (m : Memory) :
    frameBytes (built s data.length (storeBytes m 3 data)).txf = buildChunk s.blk data := by
  have hframe := frameBytes_builtFrame (storeBytes m 3 data) h s.blk
  rwa [take_payloadOf_storeBytes h] at hframe

/-- Settles O39, from the state TXLOAD leaves. -/
theorem txloadBuildsTheChunk : Obligations.TxloadBuildsTheChunk := fun _ s h =>
  ⟨_, execAll_txload h s, frameBytes_built h s s.txf, toNat_count (by omega), rfl⟩

/-! ### RXFRAME -/

/-- The state with `n` bytes received, the receive buffer being `m`. -/
def receiving (s : State) (n : Nat) (m : Memory) : State :=
  answered { s with rxf := m, rxpos := BitVec.ofNat 8 n }

theorem exec_rxbyte_receiving (s : State) (d : Byte) (n : Nat) (m : Memory) (h : n < 133) :
    exec (.rxbyte d) (receiving s n m) = .next (receiving s (n + 1) (m.write (0 + n) d)) := by
  have hpos : (receiving s n m).rxpos.toNat = n := toNat_count (by omega)
  have hnext : (receiving s n m).rxpos + 1 = BitVec.ofNat 8 (n + 1) := count_succ n
  rw [exec_rxbyte d (by omega), received, hpos, hnext, Nat.zero_add]
  rfl

/-- RXCLR and 133 RXBYTEs in one equation (R61). -/
theorem execAll_rxframe {bytes : List Byte} (h : bytes.length = 133) (s : State) :
    execAll (rxframe bytes) s = .next (receiving s 133 (storeBytes s.rxf 0 bytes)) := by
  have hrun := execAll_storing (exec_rxbyte_receiving s) bytes 0 s.rxf (by omega)
  rw [h] at hrun
  exact (execAll_cons (exec_rxclr s)).trans hrun

/-- Bytes stored over the whole frame are the frame. -/
theorem frameBytes_storeBytes {bytes : List Byte} (h : bytes.length = 133) (m : Memory) :
    frameBytes (storeBytes m 0 bytes) = bytes := by
  apply List.ext_getElem?
  intro i
  by_cases hi : i < 133
  · have hbyte := byteAt_storeBytes bytes m 0 (i := i) (by omega)
    rw [Nat.zero_add] at hbyte
    rw [getElem?_frameBytes _ hi, hbyte, List.getElem?_eq_getElem]
  · rw [List.getElem?_eq_none (by rw [length_frameBytes]; omega), List.getElem?_eq_none (by omega)]

/-- Settles O44, from the state RXFRAME leaves. -/
theorem rxframeReceivesTheBytes : Obligations.RxframeReceivesTheBytes := fun _ s h =>
  ⟨_, execAll_rxframe h s, frameBytes_storeBytes h s.rxf, rfl⟩

end Sys2Proof.Machine
end

section
/-!
A transfer (spec/41_encoder.md R87, spec/60_exceptions.md R118): the pieces of a byte sequence, and the chunks that are
loaded, popped and acknowledged one after the other.
-/

namespace Sys2Proof.Machine

open Sys2Proof.Claims

/-! ### The pieces -/

/-- With fuel enough, piece `k` is the 128 bytes from `128 k` on, or what is left of them. -/
theorem piecesFuel_eq (fuel : Nat) (data : List Byte) (h : data.length ≤ fuel) : piecesFuel fuel data =
    (List.range ((data.length + 127) / 128)).map fun k => (data.drop (128 * k)).take 128 := by
  induction fuel generalizing data with
  | zero => rw [List.length_eq_zero_iff.1 (Nat.le_zero.1 h)]; rfl
  | succ fuel ih =>
    rcases data with _ | ⟨d, ds⟩
    · rfl
    · have hcount : ((d :: ds).length + 127) / 128 = (((d :: ds).drop 128).length + 127) / 128 + 1 := by
        rw [List.length_drop, List.length_cons]
        omega
      have hrest := ih ((d :: ds).drop 128) (by rw [List.length_drop]; omega)
      rw [hcount, List.range_succ_eq_map, List.map_cons, List.map_map, piecesFuel, if_neg (by simp), Config.payloadLen,
        hrest]
      simp only [List.drop_drop, Function.comp_def, Nat.mul_succ, Nat.add_comm 128, Nat.mul_zero, List.drop_zero]

theorem pieces_eq (data : List Byte) : pieces data =
    (List.range ((data.length + 127) / 128)).map fun k => (data.drop (128 * k)).take 128 :=
  piecesFuel_eq data.length data le_rfl

theorem length_pieces (data : List Byte) : (pieces data).length = (data.length + 127) / 128 := by
  rw [pieces_eq, List.length_map, List.length_range]

theorem flatten_piecesFuel (fuel : Nat) (data : List Byte) (h : data.length ≤ fuel) :
    (piecesFuel fuel data).flatten = data := by
  induction fuel generalizing data with
  | zero => rw [List.length_eq_zero_iff.1 (Nat.le_zero.1 h)]; rfl
  | succ fuel ih =>
    rcases data with _ | ⟨d, ds⟩
    · rfl
    · rw [piecesFuel, if_neg (by simp), List.flatten_cons, ih _ (by simp [Config.payloadLen] at h ⊢; omega),
        List.take_append_drop]

/-- Piece `k` exists where `128 k` bytes do not use the sequence up, and holds at most 128 of the rest. -/
theorem length_of_getElem?_pieces {data p : List Byte} {k : Nat} (h : (pieces data)[k]? = some p) :
    128 * k < data.length ∧ p.length = min 128 (data.length - 128 * k) := by
  rw [pieces_eq, List.getElem?_map] at h
  obtain ⟨j, hj, rfl⟩ := Option.map_eq_some_iff.1 h
  obtain ⟨hk, rfl⟩ := List.getElem?_eq_some_iff.1 hj
  rw [List.length_range] at hk
  simp
  omega

theorem length_le_of_mem_pieces {data p : List Byte} (h : p ∈ pieces data) : p.length ≤ 128 := by
  obtain ⟨k, hk⟩ := List.getElem?_of_mem h
  obtain ⟨-, hlen⟩ := length_of_getElem?_pieces hk
  omega

/-! ### The chunks -/

/-- Operations that answer complete. -/
theorem execAll_of_answers {is : List Instr} {s t : State} {ds : List Word} (h : answers is s = some (ds, t)) :
    execAll is s = .next t := by
  induction is generalizing s ds with
  | nil =>
    cases h
    rfl
  | cons i rest ih =>
    unfold answers at h
    split at h
    · next u hu =>
      split at h
      · next hrest =>
        cases h
        exact (execAll_cons hu).trans (ih hrest)
      · cases h
    · cases h
    · cases h

/-- What the host does for one chunk (R87, R118). -/
def sendChunk (p : List Byte) : List Instr := txload p ++ txsend ++ [.blknext]

/-- A chunk is loaded, popped to its end and acknowledged; BLK then is the next one. -/
theorem execAll_sendChunk {p : List Byte} (h : p.length ≤ 128) (s : State) :
    ∃ t, execAll (sendChunk p) s = .next t ∧ t.blk = s.blk + 1 := by
  obtain ⟨t, hpop, hblock⟩ := answers_txpop_frame (s := built s p.length (storeBytes s.txf 3 p)) rfl rfl
  refine ⟨answered { t with blk := t.blk + 1 }, ?_, ?_⟩
  · have hsent : execAll (txload p ++ txsend) s = .next t :=
      (execAll_append (execAll_txload h s)).trans (execAll_of_answers hpop)
    calc execAll (txload p ++ txsend ++ [Instr.blknext]) s
        = execAll [Instr.blknext] t := execAll_append hsent
      _ = .next (answered { t with blk := t.blk + 1 }) := execAll_cons (exec_blknext t)
  · change t.blk + 1 = s.blk + 1
    rw [hblock]
    rfl

theorem execAll_sendChunks {ps : List (List Byte)} (h : ∀ p ∈ ps, p.length ≤ 128) (s : State) :
    ∃ t, execAll (ps.flatMap sendChunk) s = .next t ∧ t.blk = s.blk + BitVec.ofNat 8 ps.length := by
  induction ps generalizing s with
  | nil => exact ⟨s, rfl, by simp⟩
  | cons p ps ih =>
    obtain ⟨t, hfirst, ht⟩ := execAll_sendChunk (h p (by simp)) s
    obtain ⟨u, hrest, hu⟩ := ih (fun q hq => h q (by simp [hq])) t
    refine ⟨u, ?_, ?_⟩
    · rw [List.flatMap_cons, execAll_append hfirst, hrest]
    · rw [hu, ht, List.length_cons, ← count_succ, BitVec.add_assoc, BitVec.add_comm 1]

/-- From BLKRST on, BLK is one more than the chunks sent, modulo 256. -/
theorem execAll_blkrst_sendChunks {ps : List (List Byte)} (h : ∀ p ∈ ps, p.length ≤ 128) (s : State) :
    ∃ t, execAll (.blkrst :: ps.flatMap sendChunk) s = .next t ∧ t.blk = BitVec.ofNat 8 (ps.length + 1) := by
  obtain ⟨t, hrun, ht⟩ := execAll_sendChunks h (answered { s with blk := 0x01 })
  refine ⟨t, (execAll_cons (exec_blkrst s)).trans hrun, ?_⟩
  rw [ht, ← count_succ, BitVec.add_comm]
  rfl

/-- Piece `k` is built after the `k` pieces before it, under block number `k + 1`. -/
theorem execAll_loadPiece {data p : List Byte} {k : Nat} (h : (pieces data)[k]? = some p) (s : State) :
    ∃ t, execAll ((.blkrst :: ((pieces data).take k).flatMap sendChunk) ++ txload p) s = .next t ∧
      frameBytes t.txf = buildChunk (BitVec.ofNat 8 (k + 1)) p ∧ t.txcnt.toNat = p.length := by
  have hp := length_le_of_mem_pieces (List.mem_of_getElem? h)
  obtain ⟨hk, -⟩ := List.getElem?_eq_some_iff.1 h
  obtain ⟨t, hrun, ht⟩ := execAll_blkrst_sendChunks
    (fun q hq => length_le_of_mem_pieces (List.mem_of_mem_take hq)) (ps := (pieces data).take k) s
  rw [List.length_take, Nat.min_eq_left (by omega)] at ht
  refine ⟨_, (execAll_append hrun).trans (execAll_txload hp t), ?_, toNat_count (by omega)⟩
  rw [frameBytes_built hp, ht]

/-- Settles O40, from the pieces and the run of their chunks. -/
theorem transferBuildsOneChunkPerPiece : Obligations.TransferBuildsOneChunkPerPiece := by
  intro data
  refine ⟨flatten_piecesFuel _ data le_rfl, length_pieces data, fun k p h => ?_, fun s => ?_⟩
  · obtain ⟨hk, hlen⟩ := length_of_getElem?_pieces h
    have hcount := length_pieces data
    exact ⟨by omega, by omega, fun hlast => by omega, execAll_loadPiece h⟩
  · obtain ⟨t, hrun, ht⟩ := execAll_blkrst_sendChunks (fun p => length_le_of_mem_pieces (data := data)) s
    exact ⟨t, hrun, by rw [ht]; rfl⟩

end Sys2Proof.Machine
end

section
/-!
The decoder's verdict on what it received (spec/42_decoder.md R94, R96, R97): a chunk of the encoder passes every check,
and a changed bit fails the check that guards its byte.
-/

namespace Sys2Proof.Machine

open Sys2Proof.Claims

/-! ### The checks as conditions on the bytes -/

theorem sohOk_iff {b : Block} : sohOk b = true ↔ rxDone b = true ∧ b.rxf.byteAt 0 = Config.soh := by
  rw [sohOk, Bool.and_eq_true, beq_iff_eq]

theorem cmpOk_iff {b : Block} : cmpOk b = true ↔ rxDone b = true ∧ b.rxf.byteAt 1 ^^^ b.rxf.byteAt 2 = 0xFF := by
  rw [cmpOk, Bool.and_eq_true, beq_iff_eq, ← eq_complement_iff_xor]
  rfl

theorem crcOk_iff {b : Block} : crcOk b = true ↔ rxDone b = true ∧ crc16 (payloadOf b.rxf) = rxCrc b := by
  rw [crcOk, Bool.and_eq_true, beq_iff_eq]

theorem rxOk_iff {b : Block} : rxOk b = true ↔ sohOk b = true ∧ cmpOk b = true ∧ crcOk b = true := by
  rw [rxOk, Bool.and_eq_true, Bool.and_eq_true, and_assoc]

/-! ### A chunk of the encoder -/

/-- The bytes of a buffer that holds a chunk of the encoder. -/
theorem bytes_of_frameBytes_eq {m : Memory} {block : Byte} {data : List Byte} (h : data.length ≤ 128)
    (hm : frameBytes m = buildChunk block data) :
    (m.byteAt 0 = 0x01 ∧ m.byteAt 1 = block ∧ m.byteAt 2 = complement block) ∧ payloadOf m = padded data ∧
      m.byteAt 131 = highByte (crc16 (padded data)) ∧ m.byteAt 132 = lowByte (crc16 (padded data)) := by
  rw [frameBytes_eq, buildChunk_eq] at hm
  simp only [List.cons_append, List.nil_append, List.cons.injEq] at hm
  obtain ⟨h0, h1, h2, hrest⟩ := hm
  obtain ⟨hpay, htrailer⟩ := List.append_inj hrest (by rw [length_payloadOf, length_padded data h])
  simp only [trailerOf, List.cons.injEq, and_true] at htrailer
  exact ⟨⟨h0, h1, h2⟩, hpay, htrailer⟩

theorem checks_of_frameBytes_eq {b : Block} {block : Byte} {data : List Byte} (h : data.length ≤ 128)
    (hdone : rxDone b = true) (hm : frameBytes b.rxf = buildChunk block data) :
    sohOk b = true ∧ cmpOk b = true ∧ crcOk b = true := by
  obtain ⟨⟨h0, h1, h2⟩, hpay, h131, h132⟩ := bytes_of_frameBytes_eq h hm
  refine ⟨sohOk_iff.2 ⟨hdone, h0⟩, cmpOk_iff.2 ⟨hdone, ?_⟩, crcOk_iff.2 ⟨hdone, ?_⟩⟩
  · rw [h1, ← eq_complement_iff_xor, h2]
  · rw [rxCrc, h131, h132, bigEndian_highByte_lowByte, hpay]

/-- Settles O45, from the bytes of the chunk in the receive buffer. -/
theorem encodedChunkIsAccepted : Obligations.EncodedChunkIsAccepted := by
  intro block data s h
  have hlen := length_buildChunk block h
  have hm := frameBytes_storeBytes hlen s.rxf
  obtain ⟨⟨-, h1, h2⟩, hpay, h131, h132⟩ := bytes_of_frameBytes_eq h hm
  obtain ⟨hsoh, hcmp, hcrc⟩ :=
    checks_of_frameBytes_eq (b := (receiving s 133 (storeBytes s.rxf 0 (buildChunk block data))).toBlock) h rfl hm
  refine ⟨_, execAll_rxframe hlen s, rxOk_iff.2 ⟨hsoh, hcmp, hcrc⟩, hsoh, hcmp, hcrc, ?_, ?_, ?_, fun i hi => ?_⟩
  · exact congrArg (BitVec.setWidth 16) h1
  · have hview : registerView (receiving s 133 (storeBytes s.rxf 0 (buildChunk block data))) 7 =
        (complement block).setWidth 16 := congrArg (BitVec.setWidth 16) h2
    have hvalue := (eq_complement_iff (complement block) block).1 rfl
    rw [hview, BitVec.toNat_setWidth_of_le (by omega), hvalue]
  · exact (crcOk_iff.1 hcrc).2.symm
  · have hbyte := getElem?_padded data (i := i.toNat) (by omega)
    rw [← hpay, getElem?_payloadOf _ (by omega)] at hbyte
    rw [← Option.some.inj hbyte]
    exact exec_rxpay_of_complete (not_lt.2 hi) rfl

/-! ### Flags that a change leaves alone -/

section

variable {b : Block} {m : Memory}

theorem sohOk_congr (h : m.byteAt 0 = b.rxf.byteAt 0) : sohOk { b with rxf := m } = sohOk b :=
  Bool.eq_iff_iff.2 (by rw [sohOk_iff, sohOk_iff, h]; rfl)

theorem cmpOk_congr (h : m.byteAt 1 ^^^ m.byteAt 2 = b.rxf.byteAt 1 ^^^ b.rxf.byteAt 2) :
    cmpOk { b with rxf := m } = cmpOk b :=
  Bool.eq_iff_iff.2 (by rw [cmpOk_iff, cmpOk_iff, h]; rfl)

/-- The header is not covered by the CRC (R97). -/
theorem crcOk_congr (h : ∀ x, 3 ≤ x → m.byteAt x = b.rxf.byteAt x) : crcOk { b with rxf := m } = crcOk b := by
  have hpay : payloadOf m = payloadOf b.rxf := payloadOf_congr fun i _ => h (3 + i) (by omega)
  have hcrc : rxCrc { b with rxf := m } = rxCrc b := congrArg₂ bigEndian (h 131 (by omega)) (h 132 (by omega))
  rw [crcOk, crcOk, hpay, hcrc]
  rfl

end

/-! ### Flipped bits -/

theorem byteAt_flipBit_self (m : Memory) (x k : Nat) : (flipBit m x k).byteAt x = m.byteAt x ^^^ (0x01#8 <<< k) :=
  Memory.byteAt_write_self ..

theorem byteAt_flipBit_ne (m : Memory) {x y : Nat} (k : Nat) (h : y ≠ x) : (flipBit m x k).byteAt y = m.byteAt y :=
  Memory.byteAt_write_ne _ _ h

/-- A flipped bit of the payload is a flipped bit of one byte of its list. -/
theorem payloadOf_flipBit (m : Memory) {i : Nat} (hi : i < 128) (k : Nat) : payloadOf (flipBit m (3 + i) k) =
    (payloadOf m).set i ((payloadOf m).getD i 0x00 ^^^ (0x01#8 <<< k)) := by
  apply List.ext_getElem?
  intro j
  rw [List.getElem?_set, length_payloadOf]
  by_cases hij : i = j
  · subst hij
    rw [if_pos rfl, if_pos hi, getElem?_payloadOf _ hi, byteAt_flipBit_self, List.getD_eq_getElem?_getD,
      getElem?_payloadOf m hi, Option.getD_some]
  · rw [if_neg hij]
    by_cases hj : j < 128
    · rw [getElem?_payloadOf _ hj, getElem?_payloadOf _ hj, byteAt_flipBit_ne _ k (by omega)]
    · have hbeyond : ∀ m : Memory, (payloadOf m)[j]? = none := fun m =>
        List.getElem?_eq_none (by rw [length_payloadOf]; omega)
      rw [hbeyond, hbeyond]

theorem bigEndian_inj {hi lo hi' lo' : Byte} (h : bigEndian hi lo = bigEndian hi' lo') : hi = hi' ∧ lo = lo' := by
  have left : ∀ a b : Byte, highByte (bigEndian a b) = a := fun _ _ => BitVec.extractLsb'_append_eq_left
  have right : ∀ a b : Byte, lowByte (bigEndian a b) = b := fun _ _ => BitVec.extractLsb'_append_eq_right
  exact ⟨by rw [← left hi lo, h, left], by rw [← right hi lo, h, right]⟩

/-- A flipped bit of payload or trailer parts the trailer from the CRC of the payload. -/
theorem crcOk_flipBit {b : Block} (h : crcOk b = true) {x k : Nat} (hlow : 3 ≤ x) (hhigh : x ≤ 132) (hk : k < 8) :
    crcOk { b with rxf := flipBit b.rxf x k } = false := by
  obtain ⟨-, hcrc⟩ := crcOk_iff.1 h
  rw [← Bool.not_eq_true, crcOk_iff]
  rintro ⟨-, hflip⟩
  by_cases hx : x ≤ 130
  · have htrailer : rxCrc { b with rxf := flipBit b.rxf x k } = rxCrc b :=
      congrArg₂ bigEndian (byteAt_flipBit_ne _ k (by omega)) (byteAt_flipBit_ne _ k (by omega))
    obtain ⟨i, rfl⟩ := Nat.exists_eq_add_of_le hlow
    rw [htrailer, ← hcrc, payloadOf_flipBit _ (by omega)] at hflip
    exact singleBitChangesCrc16 _ i k (by rw [length_payloadOf]; omega) hk hflip
  · have hpay : payloadOf (flipBit b.rxf x k) = payloadOf b.rxf :=
      payloadOf_congr fun i hi => byteAt_flipBit_ne _ k (by omega)
    rw [hpay, hcrc] at hflip
    obtain ⟨h131, h132⟩ := bigEndian_inj hflip
    obtain rfl | rfl : x = 131 ∨ x = 132 := by omega
    · exact xor_bit_ne _ hk ((byteAt_flipBit_self ..).symm.trans h131.symm)
    · exact xor_bit_ne _ hk ((byteAt_flipBit_self ..).symm.trans h132.symm)

/-- A flipped bit of the block number or of its complement is a flipped bit of what CMPOK looks at, their XOR. -/
theorem xor_header_flipBit (m : Memory) {x : Nat} (hx : x = 1 ∨ x = 2) (k : Nat) :
    (flipBit m x k).byteAt 1 ^^^ (flipBit m x k).byteAt 2 = m.byteAt 1 ^^^ m.byteAt 2 ^^^ (0x01#8 <<< k) := by
  obtain rfl | rfl := hx
  · rw [byteAt_flipBit_self, byteAt_flipBit_ne _ k (by omega), BitVec.xor_assoc, BitVec.xor_comm (0x01#8 <<< k),
      ← BitVec.xor_assoc]
  · rw [byteAt_flipBit_self, byteAt_flipBit_ne _ k (by omega), BitVec.xor_assoc]

/-- A flipped bit of the block number or its complement, not of both, parts the two. -/
theorem cmpOk_flipBit {b : Block} (h : cmpOk b = true) {x k : Nat} (hx : x = 1 ∨ x = 2) (hk : k < 8) :
    cmpOk { b with rxf := flipBit b.rxf x k } = false := by
  obtain ⟨-, hcmp⟩ := cmpOk_iff.1 h
  rw [← Bool.not_eq_true, cmpOk_iff]
  rintro ⟨-, hflip⟩
  exact xor_bit_ne 0xFF hk (by rw [← hcmp, ← xor_header_flipBit _ hx, hflip, hcmp])

/-- Settles O46, check by check. -/
theorem damageIsDetected : Obligations.DamageIsDetected := by
  intro s h
  obtain ⟨hsoh, hcmp, hcrc⟩ := rxOk_iff.1 h
  refine ⟨fun x k hlow hhigh hk => ?_, fun x k hx hk => ?_, fun k hk => ?_, fun v hv => ?_⟩
  · have hdamaged := crcOk_flipBit hcrc hlow hhigh hk
    refine ⟨hdamaged, by rw [rxOk, hdamaged, Bool.and_false], ?_, ?_⟩
    · rw [sohOk_congr (byteAt_flipBit_ne _ k (by omega)), hsoh]
    · rw [cmpOk_congr, hcmp]
      rw [byteAt_flipBit_ne _ k (by omega), byteAt_flipBit_ne _ k (by omega)]
  · refine ⟨cmpOk_flipBit hcmp hx hk, ?_⟩
    rw [crcOk_congr fun y hy => byteAt_flipBit_ne _ k (by omega), hcrc]
  · refine ⟨?_, fun hblk => xor_bit_ne (rxBlk s) hk ?_⟩
    · rw [cmpOk_congr, hcmp]
      rw [xor_header_flipBit _ (.inr rfl), xor_header_flipBit _ (.inl rfl), BitVec.xor_assoc, BitVec.xor_self,
        BitVec.xor_zero]
    · exact ((byteAt_flipBit_ne _ k (by omega)).trans (byteAt_flipBit_self ..)).symm.trans hblk
  · refine ⟨?_, ?_⟩
    · rw [← Bool.not_eq_true, sohOk_iff]
      rintro ⟨-, hbyte⟩
      exact hv ((Memory.byteAt_write_self ..).symm.trans hbyte)
    · rw [crcOk_congr fun y hy => Memory.byteAt_write_ne _ _ (by omega), hcrc]

end Sys2Proof.Machine
end
